-- ==== Sys2Proof/Word.lean ====
section
/-! DEFINITION. The value types of the block (00_scope.md R9, 10_state.md R13). All values are unsigned. -/

namespace Sys2Proof

/-- One bit. A bitstring is a `List Bit` whose element 0 is the most significant bit (R9). -/
abbrev Bit := BitVec 1

/-- A byte: an element of `PIX` or `OUT`, a command word, the `STATUS` register (R9). -/
abbrev Byte := BitVec 8

/-- A 64-bit register value (R13, R26). -/
abbrev Word := BitVec 64

/-- One element of `TXT`, a code point of `CP_WIDTH <= 64` bits, held zero-extended (R7, R29). -/
abbrev CodePoint := BitVec 64

end Sys2Proof
end

