-- ==== Sys2Proof/Config.lean ====
section
/-! DEFINITION. What an implementation fixes (R4 to R8) and the free values (R33, R34, X2). -/

namespace Sys2Proof

/-- The parameters a model takes as arguments (R5). `HOST_BUS` is not represented (R8).
The type of the step is fixed by `Host.Core`, so they travel in `State.params` (log 2). -/
structure Params where
  /-- `PIX_CAP`: number of elements of `PIX`. -/
  pixCap : Nat
  /-- `TXT_CAP`: number of elements of `TXT`. -/
  txtCap : Nat
  /-- `OUT_CAP`: number of elements of `OUT`. -/
  outCap : Nat
  /-- `CP_WIDTH`: width in bits of one `TXT` element. -/
  cpWidth : Nat
deriving DecidableEq, Repr

namespace Config

/-- `HEADER_BITS` (R4). -/
abbrev headerBits : Nat := 64

/-- `CHAR_BITS` (R4). -/
abbrev charBits : Nat := 8

/-- The largest code point that can be encoded (R4). -/
abbrev maxCodePoint : Nat := 255

/-- The parameters of `State.reset`.
DESIGN CHOICE (log 2), unsafe: the spec gives `PIX_CAP` and `TXT_CAP` no value.
`OUT_CAP` and `CP_WIDTH` have the defaults of R5. -/
def params : Params where
  pixCap := 4294967296
  txtCap := 4294967296
  outCap := 536870904
  cpWidth := 32

/-- Free value (log 8): `POS` where the spec leaves it unspecified (R33, X2). -/
opaque freePos : Nat → Word

/-- Free value (log 8): the header accumulator where the spec leaves it unspecified (R34, X2). -/
opaque freeHdr : Nat → Word

/-- Free value (log 8): the character shift register where the spec leaves it unspecified (R34, X2). -/
opaque freeChr : Nat → Byte

end Config

end Sys2Proof
end

