-- ==== Sys2Proof/Syntax.lean ====
section
/-! DEFINITION. The commands of the block, one constructor per row of spec/opcode_table.json (R61). -/

namespace Sys2Proof

/-- The five commands (R61). No command has an operand field (R62): operands are in registers and memories. -/
inductive Instr where
  /-- NOP, R86. -/
  | nop
  /-- ENCODE, R100. -/
  | encode
  /-- DECODE, R120. -/
  | decode
  /-- RDBIT, R84. -/
  | rdbit
  /-- WRBIT, R85. -/
  | wrbit
deriving DecidableEq, Repr

end Sys2Proof
end

