-- ==== Sys2Proof/WellFormed.lean ====
section
/-! DEFINITION. Well-formedness of commands (R62: nothing to check) and of parameters (R5, R6). -/

namespace Sys2Proof

/-- A command names only its operation (R60, R62), so every term of `Instr` is well-formed. -/
def Instr.wellFormed : Instr → Bool
  | .nop => true
  | .encode => true
  | .decode => true
  | .rdbit => true
  | .wrbit => true

/-- `PIX_CAP` is a legal value (R5). -/
def Params.pixCapLegal (p : Params) : Bool := decide (p.pixCap < 2 ^ 64)

/-- `TXT_CAP` is a legal value (R5). -/
def Params.txtCapLegal (p : Params) : Bool := decide (p.txtCap < 2 ^ 64)

/-- `OUT_CAP >= (PIX_CAP - 64) div 8` when `PIX_CAP >= 64`, and may be 0 otherwise (R6). -/
def Params.outCapLegal (p : Params) : Bool := decide (64 ≤ p.pixCap → (p.pixCap - 64) / 8 ≤ p.outCap)

/-- `8 <= CP_WIDTH <= 64` (R5). -/
def Params.cpWidthLegal (p : Params) : Bool := decide (8 ≤ p.cpWidth ∧ p.cpWidth ≤ 64)

/-- The parameters are legal (R5, R6). -/
def Params.legal (p : Params) : Bool :=
  p.pixCapLegal && p.txtCapLegal && p.outCapLegal && p.cpWidthLegal

end Sys2Proof
end

