-- ==== Sys2Proof/Decode.lean ====
section
/-! DEFINITION. The decoder of a command word (R60 to R66) and, after it, the encoder. -/

namespace Sys2Proof

/-- Why a command word is illegal (R65). -/
inductive DecodeReject where
  /-- `OP` is unassigned: 0x05, 0x06, 0x07. -/
  | opUnassigned (op : Nat)
  /-- `ZERO` is not 0: 0x08 to 0xFF. -/
  | zeroNotZero (field : Nat)
deriving DecidableEq, Repr

/-- What a command word decodes to: a command, or a rejection by name. -/
inductive Decoded where
  | command (i : Instr)
  | illegal (why : DecodeReject)
deriving DecidableEq, Repr

/-- The `ZERO` field, bits 7:3 (R60). -/
def fieldZero (c : Byte) : Nat := (c.extractLsb' 3 5).toNat

/-- The `OP` field, bits 2:0 (R60). -/
def fieldOp (c : Byte) : Nat := (c.extractLsb' 0 3).toNat

/-- The operation an `OP` value names, with `ZERO` = 0 (R61, R63). -/
def decodeOp : Nat → Decoded
  | 0 => .command .nop
  | 1 => .command .encode
  | 2 => .command .decode
  | 3 => .command .rdbit
  | 4 => .command .wrbit
  | n => .illegal (.opUnassigned n)

/-- `decode_cmd` (R63): total, and needs no state. -/
def decodeCmd (c : Byte) : Decoded :=
  if fieldZero c ≠ 0 then .illegal (.zeroNotZero (fieldZero c)) else decodeOp (fieldOp c)

/-- The command of a word, if it is legal. -/
def Decoded.toOption : Decoded → Option Instr
  | .command i => some i
  | .illegal _ => none

/-- The decoder on a table word: the command word is the low 8 bits of what the host writes (R60),
and bits above `nbits` are 0. -/
def decodeTableWord (nbits w : Nat) : Option Instr :=
  (decodeCmd (BitVec.ofNat 8 (w % 2 ^ nbits))).toOption

/-- The `OP` value of a command (R61). -/
def opOf : Instr → Nat
  | .nop => 0
  | .encode => 1
  | .decode => 2
  | .rdbit => 3
  | .wrbit => 4

/-- The command word of a command: `ZERO` = 0 in bits 7:3, `OP` in bits 2:0 (R60, R61). -/
def encode (i : Instr) : Byte := (0#5) ++ (BitVec.ofNat 3 (opOf i))

/-- One row of the opcode map: a word `c` is the row's command when `c AND mask = match` (R63). -/
structure OpcodeRow where
  pattern : Byte
  mask : Byte
  instr : Instr
deriving DecidableEq, Repr

/-- The opcode map as spec/opcode_table.json writes it (R61). -/
def opcodeTable : List OpcodeRow :=
  [⟨0x00#8, 0xFF#8, .nop⟩, ⟨0x01#8, 0xFF#8, .encode⟩, ⟨0x02#8, 0xFF#8, .decode⟩,
   ⟨0x03#8, 0xFF#8, .rdbit⟩, ⟨0x04#8, 0xFF#8, .wrbit⟩]

/-- The commands whose row matches a word (R63). -/
def tableLookup (c : Byte) : List Instr :=
  (opcodeTable.filter fun r => c &&& r.mask == r.pattern).map OpcodeRow.instr

end Sys2Proof
end

