-- ==== Sys2Proof/Machine/State.lean ====
section
/-! DEFINITION. The state of the block (10_state.md), its inputs, its errors and its reset (70_reset_and_hazards.md R170 to R172). -/

namespace Sys2Proof.Machine

/-- The three memories (R40). -/
inductive Space where
  | pix
  | txt
  | out
deriving DecidableEq, Repr

/-- Why the machine stops. The spec's fatal errors are not stops but next states (R147), and no situation halts the engine. -/
inductive Fault where
  /-- Raised by DECODE (and its micro-sequence) when it would store to an `OUT` element that does not exist.
  Impossible for parameters that obey R6 (R124). Safe. -/
  | outOverrun (index : Nat)
deriving DecidableEq, Repr

/-- Situations the model gives no meaning. -/
inductive Refusal where
  /-- Raised by `exec` for an instruction without a meaning. Safe. -/
  | notModelled (mnemonic : String)
  /-- Raised by a command or a host read that depends on an element never written since the last reset (R172, X1). Safe. -/
  | unwritten (space : Space) (index : Nat)
  /-- Raised by a host read at an index at or above the capacity (R56, X5). Safe. -/
  | outsideMemory (space : Space) (index : Nat)
  /-- Raised by a host read of anything but `STATUS` while a command runs (R178, X3). Safe. -/
  | busyRead
  /-- Raised by a host `TxtWrite` whose value is not a `CP_WIDTH`-bit value: R10 gives no such transaction. Safe. -/
  | txtValueTooWide (index : Nat) (value : Word)
deriving DecidableEq, Repr

/-- The fatal errors (R140). -/
inductive ErrCode where
  | bufferTooSmall
  | outOfRangeChar
  | indexOutOfRange
  | illegalCommand
  | lengthExceedsCapacity
deriving DecidableEq, Repr

/-- A fatal error with its three context values: the `E(i0, i1, i2)` of `raise` (R147). -/
structure FatalError where
  code : ErrCode
  /-- `ERRINFO0`: the expected value or bound (R22). -/
  expected : Word
  /-- `ERRINFO1`: the actual value (R23). -/
  actual : Word
  /-- `ERRINFO2`: an index or selector (R24). -/
  index : Word
deriving DecidableEq, Repr

/-- A memory: (index, element) pairs, indices strictly rising; an unlisted element has no value (R172, log 5). -/
abbrev Memory (α : Type) : Type := List (Nat × α)

/-- What acts on the block from outside: the seven transactions of R10, and reset (R170). -/
inductive HostEvent where
  /-- `RegWrite(r, v)`. -/
  | regWrite (r : Nat) (v : Word)
  /-- `RegRead(r)`. -/
  | regRead (r : Nat)
  /-- `PixWrite(a, v)`. -/
  | pixWrite (a : Nat) (v : Byte)
  /-- `PixRead(a)`. -/
  | pixRead (a : Nat)
  /-- `TxtWrite(a, v)`. -/
  | txtWrite (a : Nat) (v : CodePoint)
  /-- `TxtRead(a)`. -/
  | txtRead (a : Nat)
  /-- `OutRead(a)`. -/
  | outRead (a : Nat)
  /-- The reset event. -/
  | reset
deriving DecidableEq, Repr

/-- The value a host read returned (R10): the `-> v` of R71. -/
inductive Reply where
  | reg (r : Nat) (v : Word)
  | pix (a : Nat) (v : Byte)
  | txt (a : Nat) (v : CodePoint)
  | out (a : Nat) (v : Byte)
deriving DecidableEq, Repr

/-- The two agents (D2). -/
inductive Agent where
  | host
  | engine
deriving DecidableEq, Repr

/-- How much of a command one step does (log 1). -/
inductive Grain where
  /-- A command is one atomic step (R177). -/
  | command
  /-- A `CMD` write opens the busy window (R176) and the engine makes one controller request a step (R185, R186). -/
  | request
deriving DecidableEq, Repr

/-- Everything the spec gives the machine (10_state.md), and the model's own fields at the end. -/
structure State where
  /-- The parameters (R5): carried, never changed (log 2). -/
  params : Params
  /-- Register 0, the last accepted command word (R14). -/
  cmd : Byte
  /-- Register 1 (R15): `BUSY` bit 0, `DONE` 1, `ERR` 2, `WARN_TRUNC` 3, `ERRCODE` 7:4. -/
  status : Byte
  /-- Register 2, the length of the pixel buffer (R16). -/
  nlen : Word
  /-- Register 3, the length of the text (R17). -/
  tlen : Word
  /-- Register 4, the bit position of RDBIT and WRBIT (R18). -/
  bitidx : Word
  /-- Register 5, the bit of RDBIT and WRBIT (R19). -/
  bitdat : Bit
  /-- Register 6, the header value last written or read (R20). -/
  binsize : Word
  /-- Register 7, the number of characters in `OUT` (R21). -/
  outlen : Word
  /-- Register 8 (R22). -/
  errinfo0 : Word
  /-- Register 9 (R23). -/
  errinfo1 : Word
  /-- Register 10 (R24). -/
  errinfo2 : Word
  /-- `PIX` (R28). -/
  pix : Memory Byte
  /-- `TXT` (R29). -/
  txt : Memory CodePoint
  /-- `OUT` (R30). -/
  out : Memory Byte
  /-- Hidden: the bit cursor `POS` (R33). -/
  pos : Word
  /-- Hidden: the header accumulator (R34). -/
  hdr : Word
  /-- Hidden: the character shift register (R34). -/
  chr : Byte
  /-- The model's own: the running command has passed its checks (log 10). -/
  checked : Bool
  /-- The model's own: how many free values have been drawn (log 8). -/
  fresh : Nat
  /-- The model's own: pending host events, the next one first (log 3). -/
  inputs : List HostEvent
  /-- The model's own: values returned to the host, oldest first (log 4). -/
  replies : List Reply
  /-- The model's own: the grain of commands (log 1). -/
  grain : Grain
  /-- The model's own: who moves next while a command runs; the engine when empty (log 9). -/
  turns : List Agent
deriving DecidableEq, Repr

/-- The block with parameters `p` after reset: every register 0 (R171), no memory element with a value (R172).
The hidden values are unspecified there; 0 is a DESIGN CHOICE (log 7), unsafe. -/
def State.resetWith (p : Params) : State where
  params := p
  cmd := 0
  status := 0
  nlen := 0
  tlen := 0
  bitidx := 0
  bitdat := 0
  binsize := 0
  outlen := 0
  errinfo0 := 0
  errinfo1 := 0
  errinfo2 := 0
  pix := []
  txt := []
  out := []
  pos := 0
  hdr := 0
  chr := 0
  checked := false
  fresh := 0
  inputs := []
  replies := []
  grain := .command
  turns := []

/-- The machine right after reset (R171, R172), with the parameters of log 2. -/
def State.reset : State := State.resetWith Config.params

/-- What an operation answers: a value, a fault or a refusal. -/
abbrev Result (α : Type) : Type := Host.Outcome α Fault Refusal

end Sys2Proof.Machine
end

