-- ==== Sys2Proof/Machine/Flags.lean ====
section
/-! DEFINITION. The fields of `STATUS` (R15, R27) and the values a command leaves in it (R140, R147, R149, R176). -/

namespace Sys2Proof.Machine

/-- `STATUS.BUSY` (R15). -/
def State.busy (s : State) : Bool := s.status.getLsbD 0

/-- `STATUS.DONE` (R15). -/
def State.done (s : State) : Bool := s.status.getLsbD 1

/-- `STATUS.ERR` (R15). -/
def State.err (s : State) : Bool := s.status.getLsbD 2

/-- `STATUS.WARN_TRUNC` (R15, R146). -/
def State.warnTrunc (s : State) : Bool := s.status.getLsbD 3

/-- `STATUS.ERRCODE`, bits 7:4 (R15). -/
def State.errcode (s : State) : Nat := (s.status.extractLsb' 4 4).toNat

/-- The code of a fatal error (R140). -/
def errNumber : ErrCode → Byte
  | .bufferTooSmall => 1
  | .outOfRangeChar => 2
  | .indexOutOfRange => 3
  | .illegalCommand => 4
  | .lengthExceedsCapacity => 5

/-- `(code(E) << 4) OR 0x06` (R147): `ERRCODE` = code, `WARN_TRUNC` 0, `ERR` 1, `DONE` 1, `BUSY` 0. -/
def errorStatus (e : ErrCode) : Byte := (errNumber e <<< 4) ||| 0x06#8

/-- `0x0A if warn = 1 else 0x02` (R149). -/
def okStatus (warn : Bool) : Byte := if warn then 0x0A#8 else 0x02#8

/-- `STATUS` from acceptance to completion: busy, all else cleared (R176). -/
def busyStatus : Byte := 0x01#8

/-- The only values `STATUS` can take (R15): after reset, busy, done, done with truncation, the five errors. -/
def legalStatus : List Byte := [0x00, 0x01, 0x02, 0x0A, 0x16, 0x26, 0x36, 0x46, 0x56]

/-- `BUFFER_TOO_SMALL(64, NLEN, 0)` (R141). -/
def bufferTooSmall (nlen : Word) : FatalError := ⟨.bufferTooSmall, 64, nlen, 0⟩

/-- `OUT_OF_RANGE_CHAR(255, TXT[k], k)` (R142). -/
def outOfRangeChar (cp : CodePoint) (k : Nat) : FatalError := ⟨.outOfRangeChar, 255, cp, BitVec.ofNat 64 k⟩

/-- `INDEX_OUT_OF_RANGE(NLEN, BITIDX, 0)` (R143). -/
def indexOutOfRange (nlen bitidx : Word) : FatalError := ⟨.indexOutOfRange, nlen, bitidx, 0⟩

/-- `ILLEGAL_COMMAND(0, c, 0)` (R144, R66). -/
def illegalCommand (c : Byte) : FatalError := ⟨.illegalCommand, 0, c.setWidth 64, 0⟩

/-- `LENGTH_EXCEEDS_CAPACITY(PIX_CAP, NLEN, 0)` (R145 a). -/
def nlenExceedsCapacity (pixCap : Nat) (nlen : Word) : FatalError :=
  ⟨.lengthExceedsCapacity, BitVec.ofNat 64 pixCap, nlen, 0⟩

/-- `LENGTH_EXCEEDS_CAPACITY(TXT_CAP, TLEN, 1)` (R145 b). -/
def tlenExceedsCapacity (txtCap : Nat) (tlen : Word) : FatalError :=
  ⟨.lengthExceedsCapacity, BitVec.ofNat 64 txtCap, tlen, 1⟩

end Sys2Proof.Machine
end

