-- ==== Sys2Proof/Machine/Ops.lean ====
section
/-! DEFINITION. The named operations over memories, registers and results: reading and writing one element (R46),
`RegRead` and `RegWrite` (R13, R25, R26), `raise` (R147), `complete_ok` (R149), acceptance (R14, R176), reset (R170). -/

namespace Sys2Proof.Machine

/-- Go on with the value of a result; a fault or a refusal ends the operation. -/
def andThen {α β : Type} (x : Result α) (f : α → Result β) : Result β :=
  match x with
  | .next a => f a
  | .fault r => .fault r
  | .refused r => .refused r

/-! ### Memories (R28 to R30, R40, R46) -/

/-- The canonical form: indices strictly rising. -/
def Memory.wf {α : Type} : Memory α → Bool
  | [] => true
  | [_] => true
  | c :: d :: m => decide (c.1 < d.1) && Memory.wf (d :: m)

/-- Every listed index is below the capacity. -/
def Memory.within {α : Type} (cap : Nat) (m : Memory α) : Bool := m.all fun c => decide (c.1 < cap)

/-- The value of one element, if it has been written since the last reset (R172). -/
def Memory.read {α : Type} : Memory α → Nat → Option α
  | [], _ => none
  | c :: m, a => if c.1 = a then some c.2 else Memory.read m a

/-- Write one element, keeping the canonical form (R46, R47). -/
def Memory.write {α : Type} : Memory α → Nat → α → Memory α
  | [], a, v => [(a, v)]
  | c :: m, a, v =>
    if a < c.1 then (a, v) :: c :: m
    else if a = c.1 then (a, v) :: m
    else c :: Memory.write m a v

/-- `MemRead(S:a, 1)` (R11): an element never written since reset has no specified value and is refused (R172, X1). -/
def memRead {α : Type} (space : Space) (m : Memory α) (a : Nat) : Result α :=
  match Memory.read m a with
  | some v => .next v
  | none => .refused (.unwritten space a)

/-- `MemWrite(OUT:k, 1, v)` (R11): an element that does not exist faults; R6 excludes it (R124). -/
def outWrite (cap : Nat) (m : Memory Byte) (k : Nat) (v : Byte) : Result (Memory Byte) :=
  if k < cap then .next (Memory.write m k v) else .fault (.outOverrun k)

/-! ### Registers (R13, R25, R26) -/

/-- `RegRead(r)`: register `r` zero-extended to 64 bits; numbers 11 and above read 0 (R25). -/
def regRead (s : State) : Nat → Word
  | 0 => s.cmd.setWidth 64
  | 1 => s.status.setWidth 64
  | 2 => s.nlen
  | 3 => s.tlen
  | 4 => s.bitidx
  | 5 => s.bitdat.setWidth 64
  | 6 => s.binsize
  | 7 => s.outlen
  | 8 => s.errinfo0
  | 9 => s.errinfo1
  | 10 => s.errinfo2
  | _ => 0

/-- `RegWrite(r, v)` for `r` other than `CMD`: the operand registers 2 to 5 take the low bits of `v` (R16 to R19, R26);
the read-only registers and numbers 11 and above do not change (R15, R25, X8). `CMD` is `issue`. -/
def regWrite (s : State) (r : Nat) (v : Word) : State :=
  match r with
  | 2 => { s with nlen := v }
  | 3 => { s with tlen := v }
  | 4 => { s with bitidx := v }
  | 5 => { s with bitdat := v.setWidth 1 }
  | _ => s

/-! ### How a command ends (60_exceptions.md) and how the next one acknowledges it -/

/-- `raise E(i0, i1, i2)` (R147): what a fatal error does. Only `STATUS` and `ERRINFO0..2` change; control goes nowhere. -/
def raise (e : FatalError) (s : State) : State :=
  { s with
    errinfo0 := e.expected
    errinfo1 := e.actual
    errinfo2 := e.index
    status := errorStatus e.code }

/-- `complete_ok(warn)` (R149). -/
def completeOk (warn : Bool) (s : State) : State :=
  { s with errinfo0 := 0, errinfo1 := 0, errinfo2 := 0, status := okStatus warn }

/-- Acceptance of a `CMD` write (R14, R176): `CMD <- v[7:0]`, `STATUS <- 0x01`. This is also all there is of a return
from an error: the next accepted `CMD` write acknowledges it (R152). -/
def accept (c : Byte) (s : State) : State :=
  { s with cmd := c, status := busyStatus, checked := false }

/-- A command's checks, then either `raise` or the rest of the command (R101, R121, R147). -/
def guarded {α : Type} (checks : Result (Except FatalError α)) (s : State) (rest : α → Result State) : Result State :=
  andThen checks fun
    | .error e => .next (raise e s)
    | .ok a => rest a

/-! ### The hidden values and reset -/

/-- Forget the hidden values: their values between commands and after reset are unspecified (R33, R34, R172), so they
become free values (log 8). -/
def freeHidden (s : State) : State :=
  { s with
    pos := Config.freePos s.fresh
    hdr := Config.freeHdr s.fresh
    chr := Config.freeChr s.fresh
    fresh := s.fresh + 1 }

/-- The reset event (R170 to R173): registers 0, no memory element with a value, the hidden values free.
The parameters, the host's side (pending events, values already returned) and the model's grain and turns stay (log 19). -/
def applyReset (s : State) : State :=
  { freeHidden { State.resetWith s.params with fresh := s.fresh } with
    inputs := s.inputs
    replies := s.replies
    grain := s.grain
    turns := s.turns }

/-- A value returned to the host (R10, log 4). -/
def reply (r : Reply) (s : State) : State := { s with replies := s.replies ++ [r] }

end Sys2Proof.Machine
end

