-- ==== Sys2Proof/Machine/Operands.lean ====
section
/-! DEFINITION. The operands of the commands (R62): the lengths, the sizes of ENCODE and DECODE (R102, R124), the text
`TXT[0..TLEN)` and the checks every command makes on its operands (R148). -/

namespace Sys2Proof.Machine

/-- `N`, the value of `NLEN` as a number (R16). -/
def bufLen (s : State) : Nat := s.nlen.toNat

/-- `len(text)`, the value of `TLEN` as a number (R17). -/
def textLen (s : State) : Nat := s.tlen.toNat

/-- `avail = NLEN - 64` (R102). Used only where `NLEN >= 64` has been established (R12, R103). -/
def avail (s : State) : Nat := bufLen s - Config.headerBits

/-- `want = 8 * TLEN`, exact (R102, R103, D8). -/
def want (s : State) : Nat := Config.charBits * textLen s

/-- `bin_size = min(avail, want)` of ENCODE (R102). -/
def encodeSize (s : State) : Nat := min (avail s) (want s)

/-- `warn = (bin_size < want)` (R100, R102). -/
def truncates (s : State) : Bool := decide (encodeSize s < want s)

/-- `nchunks = (NLEN - 64) div 8` (R97, R120). -/
def chunkCount (s : State) : Nat := avail s / Config.charBits

/-- `out_len = min(bin_size div 8, nchunks)` of DECODE, for a header value (R120, R124). -/
def outCount (s : State) (binSize : Nat) : Nat := min (binSize / Config.charBits) (chunkCount s)

/-- The character check and fetch of ENCODE (R101): elements `k`, `k+1`, ... of the text, `n` of them, in index order,
stopping at the first code point above 255. -/
def scanText (m : Memory CodePoint) : Nat → Nat → Result (Except FatalError (List CodePoint))
  | 0, _ => .next (.ok [])
  | n + 1, k =>
    andThen (memRead .txt m k) fun cp =>
      if Config.maxCodePoint < cp.toNat then .next (.error (outOfRangeChar cp k))
      else andThen (scanText m n (k + 1)) fun
        | .error e => .next (.error e)
        | .ok cps => .next (.ok (cp :: cps))

/-- `NLEN > PIX_CAP` raises `LENGTH_EXCEEDS_CAPACITY` (R145 a, R148 order 2). -/
def checkBufferFits (s : State) : Except FatalError Unit :=
  if s.params.pixCap < bufLen s then .error (nlenExceedsCapacity s.params.pixCap s.nlen) else .ok ()

/-- `TLEN > TXT_CAP` raises `LENGTH_EXCEEDS_CAPACITY` (R145 b, R148 order 3). -/
def checkTextFits (s : State) : Except FatalError Unit :=
  if s.params.txtCap < textLen s then .error (tlenExceedsCapacity s.params.txtCap s.tlen) else .ok ()

/-- `NLEN < 64` raises `BUFFER_TOO_SMALL` (R141, R148 order 4). -/
def checkHeaderFits (s : State) : Except FatalError Unit :=
  if bufLen s < Config.headerBits then .error (bufferTooSmall s.nlen) else .ok ()

/-- `BITIDX >= NLEN` raises `INDEX_OUT_OF_RANGE` (R143, R148 order 5). -/
def checkBitIndex (s : State) : Except FatalError Unit :=
  if bufLen s ≤ s.bitidx.toNat then .error (indexOutOfRange s.nlen s.bitidx) else .ok ()

/-- The first error of two checks in order (R148). -/
def firstError (a b : Except FatalError Unit) : Except FatalError Unit :=
  match a with
  | .error e => .error e
  | .ok _ => b

/-- Phase 1 of ENCODE (R100, R101): the four checks in order; on success the code points of the text. -/
def encodeChecks (s : State) : Result (Except FatalError (List CodePoint)) :=
  match firstError (checkBufferFits s) (firstError (checkTextFits s) (checkHeaderFits s)) with
  | .error e => .next (.error e)
  | .ok _ => scanText s.txt (textLen s) 0

/-- Phase 1 of DECODE (R120, R121). -/
def decodeChecks (s : State) : Result (Except FatalError Unit) :=
  .next (firstError (checkBufferFits s) (checkHeaderFits s))

/-- The checks of RDBIT and WRBIT (R84, R85). -/
def bitChecks (s : State) : Result (Except FatalError Unit) :=
  .next (firstError (checkBufferFits s) (checkBitIndex s))

end Sys2Proof.Machine
end

