-- ==== Sys2Proof/Machine/BitController.lean ====
section
/-! DEFINITION. The bit-indexed read/write controller (40_bit_controller.md): `LsbRead`, `LsbWrite`, RDBIT, WRBIT, NOP. -/

namespace Sys2Proof.Machine

/-- Bit 0 of a byte, `byte & 1` (R80). -/
def lsbOf (v : Byte) : Bit := v.extractLsb' 0 1

/-- The byte `LsbWrite` stores: `old OR 0x01` for a 1, `old AND 0xFE` for a 0 (R81). -/
def setLsb (old : Byte) (b : Bit) : Byte := if b = 1#1 then old ||| 0x01#8 else old &&& 0xFE#8

/-- `LsbRead(p)` (R80): the bit at position `p`, bit 0 of `PIX[p]`. -/
def lsbRead (pix : Memory Byte) (p : Nat) : Result Bit :=
  andThen (memRead .pix pix p) fun v => .next (lsbOf v)

/-- `LsbWrite(p, b)` (R81): a read-modify-write of `PIX[p]` that can change only bit 0. It reads the element, so an
element never written since reset is refused (R172, R108; log 6). -/
def lsbWrite (pix : Memory Byte) (p : Nat) (b : Bit) : Result (Memory Byte) :=
  andThen (memRead .pix pix p) fun old => .next (Memory.write pix p (setLsb old b))

/-- RDBIT (R84). -/
def execRdbit (s : State) : Result State :=
  guarded (bitChecks s) s fun _ =>
    andThen (lsbRead s.pix s.bitidx.toNat) fun b =>
      .next (completeOk false { s with bitdat := b })

/-- WRBIT (R85). -/
def execWrbit (s : State) : Result State :=
  guarded (bitChecks s) s fun _ =>
    andThen (lsbWrite s.pix s.bitidx.toNat s.bitdat) fun pix =>
      .next (completeOk false { s with pix := pix })

/-- NOP (R86): reads nothing, not even `NLEN`. -/
def execNop (s : State) : Result State := .next (completeOk false s)

end Sys2Proof.Machine
end

