-- ==== Sys2Proof/Machine/Packer.lean ====
section
/-! DEFINITION. The bitstring-to-pixel-LSB packer (41_packer.md). -/

namespace Sys2Proof.Machine

/-- `Bits(W, v)` (R90; laws 1 and 2 of R95): the bitstring of length `W` of `v`, most significant bit first. -/
def bits (w v : Nat) : List Bit := (List.range w).map fun j => BitVec.ofNat 1 (v / 2 ^ (w - 1 - j) % 2)

/-- `Val(s)` (R91; laws 1, 2, 3 and 6 of R95), in its serial form `acc <- 2*acc + s[j]`. -/
def val (s : List Bit) : Nat := s.foldl (fun acc b => 2 * acc + b.toNat) 0

/-- `TextBits` of the characters of a text (R92; laws 7 and 8 of R95). -/
def textBits (cps : List CodePoint) : List Bit := cps.flatMap fun cp => bits Config.charBits cp.toNat

/-- `PackBits(p, s)` (R93; laws 4 and 5 of R95): write `s` onto bit positions `p`, `p+1`, ... -/
def packBits (pix : Memory Byte) : Nat → List Bit → Result (Memory Byte)
  | _, [] => .next pix
  | p, b :: s => andThen (lsbWrite pix p b) fun pix' => packBits pix' (p + 1) s

/-- `UnpackBits(p, W)` (R94; law 4 of R95): the `W` bits from position `p` on. -/
def unpackBits (pix : Memory Byte) (p : Nat) : Nat → Result (List Bit)
  | 0 => .next []
  | w + 1 => andThen (lsbRead pix p) fun b => andThen (unpackBits pix (p + 1) w) fun s => .next (b :: s)

/-- The bit position where chunk `k` begins, `64 + 8k` (R42, R97). -/
def chunkStart (k : Nat) : Nat := Config.headerBits + Config.charBits * k

/-- `Chunk(k)` (R97). -/
def chunk (pix : Memory Byte) (k : Nat) : Result Byte :=
  andThen (unpackBits pix (chunkStart k) Config.charBits) fun s => .next (BitVec.ofNat 8 (val s))

/-- `Val(UnpackBits(0, 64))`, the header of a buffer (R96). -/
def readHeader (pix : Memory Byte) : Result Nat :=
  andThen (unpackBits pix 0 Config.headerBits) fun s => .next (val s)

/-- Phase 4 of DECODE (R120): `OUT[k] <- Chunk(k)` for `n` values of `k` in order. -/
def storeChunks (cap : Nat) (pix : Memory Byte) : Nat → Nat → Memory Byte → Result (Memory Byte)
  | 0, _, out => .next out
  | n + 1, k, out =>
    andThen (chunk pix k) fun c =>
      andThen (outWrite cap out k c) fun out' => storeChunks cap pix n (k + 1) out'

end Sys2Proof.Machine
end

