-- ==== Sys2Proof/Machine/Codec.lean ====
section
/-! DEFINITION. The encoder (42_encode.md) and the decoder (43_decode.md). -/

namespace Sys2Proof.Machine

/-- Phases 3 and 4 of ENCODE (R100): the header at positions `[0, 64)`, then the first `binSize` bits of the text from 64. -/
def embed (pix : Memory Byte) (binSize : Nat) (cps : List CodePoint) : Result (Memory Byte) :=
  andThen (packBits pix 0 (bits Config.headerBits binSize)) fun pix' =>
    packBits pix' Config.headerBits ((textBits cps).take binSize)

/-- ENCODE (R100). The hidden values are free afterwards (R33, R34; log 8). -/
def execEncode (s : State) : Result State :=
  guarded (encodeChecks s) s fun cps =>
    andThen (embed s.pix (encodeSize s) cps) fun pix =>
      .next (completeOk (truncates s)
        (freeHidden { s with pix := pix, binsize := BitVec.ofNat 64 (encodeSize s) }))

/-- DECODE (R120). The header is not validated (R126). The hidden values are free afterwards (R33, R34; log 8). -/
def execDecode (s : State) : Result State :=
  guarded (decodeChecks s) s fun _ =>
    andThen (readHeader s.pix) fun binSize =>
      andThen (storeChunks s.params.outCap s.pix (outCount s binSize) 0 s.out) fun out =>
        .next (completeOk false
          (freeHidden { s with
            out := out
            binsize := BitVec.ofNat 64 binSize
            outlen := BitVec.ofNat 64 (outCount s binSize) }))

end Sys2Proof.Machine
end

