-- ==== Sys2Proof/Machine/Engine.lean ====
section
/-! DEFINITION. The engine running a command: whole (R177), or one controller request at a time (R176, R185, R186).
In the fine grain the checks of phase 1 are one turn, each controller request one turn, completion one turn (log 10). -/

namespace Sys2Proof.Machine

/-- Run the accepted command in `CMD` to completion (R177); an illegal word completes with `ILLEGAL_COMMAND` (R66). -/
def runCommand (s : State) : Result State :=
  match decodeCmd s.cmd with
  | .command i => exec i s
  | .illegal _ => .next (raise (illegalCommand s.cmd) s)

/-- The most significant bit of the header accumulator, `hdr[63]` (R185). -/
def hdrTop (hdr : Word) : Bit := hdr.extractLsb' 63 1

/-- The most significant bit of the character shift register, `chr[7]` (R185). -/
def chrTop (chr : Byte) : Bit := chr.extractLsb' 7 1

/-- ENCODE begins (R185): the checks of R100 phase 1, then `hdr <- bin_size`, `POS <- 0`. -/
def encodeBegin (s : State) : Result State :=
  guarded (encodeChecks s) s fun _ =>
    .next { s with hdr := BitVec.ofNat 64 (encodeSize s), pos := 0, checked := true }

/-- `LsbWrite(POS, hdr[63]); hdr <- hdr << 1; POS <- POS + 1` (R185, header phase). -/
def encodeHeaderBit (s : State) : Result State :=
  andThen (lsbWrite s.pix s.pos.toNat (hdrTop s.hdr)) fun pix =>
    .next { s with pix := pix, hdr := s.hdr <<< 1, pos := s.pos + 1 }

/-- `if q mod 8 = 0: chr <- TXT[q div 8][7:0]` (R185, payload phase). -/
def loadChr (s : State) (q : Nat) : Result Byte :=
  if q % 8 = 0 then andThen (memRead .txt s.txt (q / 8)) fun cp => .next (cp.setWidth 8) else .next s.chr

/-- `LsbWrite(POS, chr[7]); chr <- chr << 1; POS <- POS + 1` (R185, payload phase). -/
def encodePayloadBit (s : State) : Result State :=
  andThen (loadChr s (s.pos.toNat - 64)) fun c =>
    andThen (lsbWrite s.pix s.pos.toNat (chrTop c)) fun pix =>
      .next { s with pix := pix, chr := c <<< 1, pos := s.pos + 1 }

/-- One turn of the engine in ENCODE (R185). The completing turn leaves `POS` at R185's final value and the other hidden values
as they are. Keeping them between commands is the model's choice (log 24): R33 and R34 leave them unspecified there. -/
def encodeTurn (s : State) : Result State :=
  if s.checked = false then encodeBegin s
  else if s.pos.toNat < 64 then encodeHeaderBit s
  else if s.pos.toNat < 64 + encodeSize s then encodePayloadBit s
  else .next (completeOk (truncates s)
    { s with binsize := BitVec.ofNat 64 (encodeSize s), checked := false })

/-- DECODE begins (R186): the checks of R120 phase 1, then `hdr <- 0`, `POS <- 0`. -/
def decodeBegin (s : State) : Result State :=
  guarded (decodeChecks s) s fun _ => .next { s with hdr := 0, pos := 0, checked := true }

/-- `hdr <- 2*hdr + LsbRead(POS); POS <- POS + 1` (R186, header phase). -/
def decodeHeaderBit (s : State) : Result State :=
  andThen (lsbRead s.pix s.pos.toNat) fun b =>
    .next { s with hdr := (s.hdr <<< 1) ||| b.setWidth 64, pos := s.pos + 1 }

/-- `OUT[k] <- chr` after the eighth bit of a chunk (R186). -/
def storeChr (s : State) (q : Nat) (c : Byte) : Result (Memory Byte) :=
  if q % 8 = 7 then outWrite s.params.outCap s.out (q / 8) c else .next s.out

/-- `chr <- 2*chr + LsbRead(POS); POS <- POS + 1`, with `chr <- 0` before the first bit of a chunk and `OUT[k] <- chr`
after the eighth (R186, payload phase). -/
def decodePayloadBit (s : State) : Result State :=
  andThen (lsbRead s.pix s.pos.toNat) fun b =>
    let c := ((if (s.pos.toNat - 64) % 8 = 0 then 0#8 else s.chr) <<< 1) ||| b.setWidth 8
    andThen (storeChr s (s.pos.toNat - 64) c) fun out =>
      .next { s with out := out, chr := c, pos := s.pos + 1 }

/-- One turn of the engine in DECODE (R186). The accumulator still holds the header in the payload phase. The completing turn
leaves `POS` at R186's final value and the other hidden values as they are. Keeping them between commands is the model's choice
(log 24): R33 and R34 leave them unspecified there. -/
def decodeTurn (s : State) : Result State :=
  if s.checked = false then decodeBegin s
  else if s.pos.toNat < 64 then decodeHeaderBit s
  else if s.pos.toNat < 64 + 8 * outCount s s.hdr.toNat then decodePayloadBit s
  else .next (completeOk false
    { s with
      binsize := s.hdr
      outlen := BitVec.ofNat 64 (outCount s s.hdr.toNat)
      checked := false })

/-- One turn of the engine while a command runs. ENCODE and DECODE go bit by bit; every other word is one turn. -/
def engineTurn (s : State) : Result State :=
  match decodeCmd s.cmd with
  | .command .encode => encodeTurn s
  | .command .decode => decodeTurn s
  | .command .nop => runCommand s
  | .command .rdbit => runCommand s
  | .command .wrbit => runCommand s
  | .illegal _ => runCommand s

end Sys2Proof.Machine
end

