-- ==== Sys2Proof/Machine/HostPort.lean ====
section
/-! DEFINITION. The host transactions (R10), outside and inside the busy window (R176, R178), and the step they make. -/

namespace Sys2Proof.Machine

/-- A `CMD` write while not busy (R14, R176): accepted, and in the coarse grain run to completion in the same step (R177). -/
def issue (c : Byte) (s : State) : Result State :=
  match s.grain with
  | .command => runCommand (accept c s)
  | .request => .next (accept c s)

/-- `PixWrite(a, v)`: no effect at or above the capacity (R10, R56, X6). -/
def pixWrite (a : Nat) (v : Byte) (s : State) : State :=
  if a < s.params.pixCap then { s with pix := Memory.write s.pix a v } else s

/-- `v` is a `CP_WIDTH`-bit value (R10). -/
def fitsWidth (cpWidth : Nat) (v : CodePoint) : Bool := decide (v.toNat < 2 ^ cpWidth)

/-- `TxtWrite(a, v)`, `v` a `CP_WIDTH`-bit value (R10): no effect at or above the capacity (R56, X6).
A wider value is no transaction of R10 and is refused (log 12). -/
def txtWrite (a : Nat) (v : CodePoint) (s : State) : Result State :=
  if fitsWidth s.params.cpWidth v then
    .next (if a < s.params.txtCap then { s with txt := Memory.write s.txt a v } else s)
  else .refused (.txtValueTooWide a v)

/-- The element a host read returns: refused at or above the capacity (R56, X5) and where never written (R172, X1). -/
def portRead {α : Type} (space : Space) (cap : Nat) (m : Memory α) (a : Nat) : Result α :=
  if a < cap then memRead space m a else .refused (.outsideMemory space a)

/-- A host event while no command runs (R10, R170). -/
def hostEvent (e : HostEvent) (s : State) : Result State :=
  match e with
  | .regWrite r v => if r = 0 then issue (v.setWidth 8) s else .next (regWrite s r v)
  | .regRead r => .next (reply (.reg r (regRead s r)) s)
  | .pixWrite a v => .next (pixWrite a v s)
  | .pixRead a => andThen (portRead .pix s.params.pixCap s.pix a) fun v => .next (reply (.pix a v) s)
  | .txtWrite a v => txtWrite a v s
  | .txtRead a => andThen (portRead .txt s.params.txtCap s.txt a) fun v => .next (reply (.txt a v) s)
  | .outRead a => andThen (portRead .out s.params.outCap s.out a) fun v => .next (reply (.out a v) s)
  | .reset => .next (applyReset s)

/-- A host event while a command runs (R176, R178, X3, X4): writes are ignored, only `STATUS` can be read, reset aborts
the command (R173). -/
def busyHostEvent (e : HostEvent) (s : State) : Result State :=
  match e with
  | .regWrite _ _ => .next s
  | .regRead r => if r = 1 then .next (reply (.reg 1 (regRead s 1)) s) else .refused .busyRead
  | .pixWrite _ _ => .next s
  | .pixRead _ => .refused .busyRead
  | .txtWrite _ _ => .next s
  | .txtRead _ => .refused .busyRead
  | .outRead _ => .refused .busyRead
  | .reset => .next (applyReset s)

/-- The next pending host event, taken by `perform`; with nothing pending all state is held (R160, R179). -/
def takeInput (perform : HostEvent → State → Result State) (s : State) : Result State :=
  match s.inputs with
  | [] => .next s
  | e :: es => perform e { s with inputs := es }

/-- One turn while a command runs: `turns` says whose; when it is empty the engine moves, so a started command completes
(R188, D33; log 9). -/
def busyTurn (s : State) : Result State :=
  match s.turns with
  | [] => engineTurn s
  | .engine :: ts => engineTurn { s with turns := ts }
  | .host :: ts => takeInput busyHostEvent { s with turns := ts }

/-- One step of the block: a turn of the running command, or the next host event. -/
def advance (s : State) : Result State :=
  if s.busy then busyTurn s else takeInput hostEvent s

/-- The pending host write that issues a command word, next in order, to an idle block in the coarse grain. -/
def placeCommand (s : State) (v : Word) : State :=
  { s with
    inputs := .regWrite 0 v :: s.inputs
    status := s.status &&& 0xFE#8
    grain := .command }

end Sys2Proof.Machine
end

