-- ==== Sys2Proof/Machine/Step.lean ====
section
/-! DEFINITION. One step of the machine, and where its next command comes from. -/

namespace Sys2Proof.Machine

/-- One step (R50, R177): the next host transaction, or one turn of a running command. -/
def step (s : State) : Host.Outcome State Fault Refusal := advance s

/-- The state whose very next step runs the command word `w`: the host's write of `w` to `CMD` comes next (R14, R60; log 17). -/
def State.withFetchWord (s : State) (nbits w : Nat) : State := placeCommand s (BitVec.ofNat 64 (w % 2 ^ nbits))

end Sys2Proof.Machine
end

