-- ==== Sys2Proof/Safety.lean ====
section
/-! DEFINITION. What counts as a safe run: what a step takes (R50, R178), the invariant of the state (R36), the operands a
command must find (R175), and the closed forms of the spec that claims are stated in (R41, R106, R128). -/

namespace Sys2Proof.Machine

/-- What the spec lets anyone observe: the hidden values (R33, R34) and the model's counters are erased. -/
def State.visible (s : State) : State :=
  { s with pos := 0, hdr := 0, chr := 0, checked := false, fresh := 0 }

/-- The next step takes the host event `e`: it is the next one pending, and the block is idle or it is the host's turn in the
busy window (R50, R178). -/
def State.takes (s : State) (e : HostEvent) : Prop :=
  (∃ es, s.inputs = e :: es) ∧ (s.busy = false ∨ ∃ ts, s.turns = .host :: ts)

/-- The next step is a turn of the engine in the busy window, and `ts` are the turns left after it (log 9). -/
def State.engineMoves (s : State) (ts : List Agent) : Prop :=
  s.busy = true ∧ ((s.turns = [] ∧ ts = []) ∨ s.turns = .engine :: ts)

/-- The next step runs DECODE: whole, at its `CMD` write (R177), or one turn of it (R186). -/
def State.runsDecode (s : State) : Prop :=
  (s.busy = false ∧ s.grain = .command ∧ ∃ v : Word, s.takes (.regWrite 0 v) ∧ v.extractLsb' 0 8 = 0x02) ∨
  (s.cmd = 0x02 ∧ ∃ ts, s.engineMoves ts)

/-- Every element `a <= p < b` of `PIX` has been written since the last reset (R172, R175). -/
def PixLoaded (s : State) (a b : Nat) : Prop :=
  ∀ p, a ≤ p → p < b → ∃ v, Memory.read s.pix p = some v

/-- Every element of `TXT[0..n)` has been written and is a code point of at most 255 (R101, R175). -/
def TextPrefixReady (s : State) (n : Nat) : Prop :=
  ∀ k, k < n → ∃ cp, Memory.read s.txt k = some cp ∧ cp.toNat ≤ 255

/-- The conditions under which ENCODE embeds (R100, R101, R175). -/
structure EncodeReady (s : State) : Prop where
  bufferFits : s.nlen.toNat ≤ s.params.pixCap
  textFits : s.tlen.toNat ≤ s.params.txtCap
  headerFits : 64 ≤ s.nlen.toNat
  text : TextPrefixReady s s.tlen.toNat
  pixels : PixLoaded s 0 (64 + min (s.nlen.toNat - 64) (8 * s.tlen.toNat))

/-- The LSB of `PIX[p]` as a number, `b[p] = PIX[p] mod 2` (R128). Read only where the element is loaded. -/
def lsbNat (s : State) (p : Nat) : Nat := ((Memory.read s.pix p).getD 0).toNat % 2

/-- The header value `sum over j of b[j] * 2^(63-j)` (R128). -/
def headerValue (s : State) : Nat := ((List.range 64).map fun j => lsbNat s j * 2 ^ (63 - j)).sum

/-- The chunk value `sum over j of b[64+8k+j] * 2^(7-j)` (R97, R128). -/
def chunkValue (s : State) (k : Nat) : Nat :=
  ((List.range 8).map fun j => lsbNat s (64 + 8 * k + j) * 2 ^ (7 - j)).sum

/-- `min(BINSIZE div 8, (N - 64) div 8)` (R128). -/
def decodedLength (s : State) : Nat := min (headerValue s / 8) ((s.nlen.toNat - 64) / 8)

/-- The conditions under which DECODE extracts (R120, R121, R175), with the constraint R6 on `OUT_CAP`. -/
structure DecodeReady (s : State) : Prop where
  capacities : s.params.outCapLegal = true
  bufferFits : s.nlen.toNat ≤ s.params.pixCap
  headerFits : 64 ≤ s.nlen.toNat
  header : PixLoaded s 0 64
  payload : PixLoaded s 64 (64 + 8 * decodedLength s)

/-- The byte `old` with bit 0 replaced by `b`: `new[7:1] = old[7:1]` and `new[0] = b` (R81). -/
def withLsb (old : Byte) (b : Bit) : Byte := old.extractLsb' 1 7 ++ b

/-- The header bit at position `p`, `(bs div 2^(63-p)) mod 2` (R106). -/
def headerBit (bs p : Nat) : Bit := BitVec.ofNat 1 (bs / 2 ^ (63 - p) % 2)

/-- The payload bit at position `p` for the character `cp = TXT[(p-64) div 8]` (R106). -/
def payloadBit (cp : CodePoint) (p : Nat) : Bit := BitVec.ofNat 1 (cp.toNat / 2 ^ (7 - (p - 64) % 8) % 2)

/-- The state invariants (R36), with the ones a running command keeps (R50, R101, R121) and the readability of the decoded
text (R21, R30). -/
structure State.Inv (s : State) : Prop where
  /-- R5, R6. -/
  params : s.params.legal = true
  /-- The canonical form and the range of the three memories (R28 to R30, R40). -/
  pixWf : Memory.wf s.pix = true
  pixWithin : Memory.within s.params.pixCap s.pix = true
  txtWf : Memory.wf s.txt = true
  txtWithin : Memory.within s.params.txtCap s.txt = true
  outWf : Memory.wf s.out = true
  outWithin : Memory.within s.params.outCap s.out = true
  /-- R36 (d): every `TXT` element is below `2^CP_WIDTH`. -/
  txtWidth : s.txt.all (fun c => fitsWidth s.params.cpWidth c.2) = true
  /-- R36 (a). -/
  status : s.status ∈ legalStatus
  /-- R36 (b), outside the busy window. -/
  context : s.busy = false → s.err = false → s.errinfo0 = 0 ∧ s.errinfo1 = 0 ∧ s.errinfo2 = 0
  /-- R36 (c). -/
  warning : s.warnTrunc = true → s.err = false ∧ s.cmd = 0x01
  /-- A command past its checks is a running ENCODE or DECODE of a buffer with a header that fits (R101, R121). -/
  running : s.checked = true → s.busy = true ∧ (s.cmd = 0x01 ∨ s.cmd = 0x02) ∧
    64 ≤ s.nlen.toNat ∧ s.nlen.toNat ≤ s.params.pixCap
  /-- A running DECODE has stored every chunk whose eight positions it has passed (R186). -/
  stored : s.checked = true → s.cmd = 0x02 → ∀ k, 64 + 8 * k + 8 ≤ s.pos.toNat → (Memory.read s.out k).isSome = true
  /-- The decoded text `OUT[0..OUTLEN)` has been written (R21, R30). -/
  decoded : ∀ k, k < s.outlen.toNat → (Memory.read s.out k).isSome = true

end Sys2Proof.Machine
end

