-- ==== Sys2Proof/Certificates/Slice0/Obligations.lean ====
section
/-! DEFINITION. The statements for the provers. Each docstring names the rule of spec/ it formalises. -/

open Sys2Proof Sys2Proof.Machine

/-! ### Reset -/

/-- R171: every register is 0 after reset, for every choice of the parameters. -/
def Obligations.ResetClearsEveryRegister : Prop :=
  ∀ p : Params, ∀ r : Nat, regRead (State.resetWith p) r = 0 ∧
    (State.resetWith p).params = p ∧ State.reset = State.resetWith Config.params

/-- R170, R171, R173: the reset event, between commands and while a command runs, leaves every register 0 and (R172) no
memory element with a value; the parameters do not change (R32). That pending events and values already returned stay is
the model's choice (log 19). -/
def Obligations.ResetEventClearsTheBlock : Prop :=
  ∀ (s : State) (es : List HostEvent),
    s.inputs = .reset :: es →
    (s.busy = false ∨ (s.busy = true ∧ ∃ ts, s.turns = .host :: ts)) →
    ∃ t, step s = .next t ∧
      (∀ r, regRead t r = 0) ∧
      (∀ a, Memory.read t.pix a = none ∧ Memory.read t.txt a = none ∧ Memory.read t.out a = none) ∧
      t.params = s.params ∧ t.inputs = es ∧ t.replies = s.replies

/-! ### Command words -/

/-- R61: the five words, written out bit by bit from the table, decode to their commands, and a word is legal exactly when it
is one of them. -/
def Obligations.CommandWordsDecode : Prop :=
  decodeCmd 0b00000000#8 = .command .nop ∧ decodeCmd 0b00000001#8 = .command .encode ∧
  decodeCmd 0b00000010#8 = .command .decode ∧ decodeCmd 0b00000011#8 = .command .rdbit ∧
  decodeCmd 0b00000100#8 = .command .wrbit ∧
  ∀ c : Byte, (∃ i, decodeCmd c = .command i) ↔ c ∈ [0x00#8, 0x01#8, 0x02#8, 0x03#8, 0x04#8]

/-- R63, R65: decoding is total; exactly the words 0x05 to 0xFF are illegal, those with `ZERO = 0` because `OP` is
unassigned and the others because `ZERO` is not 0; and the mask and match rows of the opcode table say the same. -/
def Obligations.IllegalWordsAreRejected : Prop :=
  ∀ c : Byte,
    (c.toNat < 5 → ∃ i, decodeCmd c = .command i ∧ encode i = c) ∧
    (5 ≤ c.toNat → c.toNat < 8 → decodeCmd c = .illegal (.opUnassigned (c.toNat % 8))) ∧
    (8 ≤ c.toNat → decodeCmd c = .illegal (.zeroNotZero (c.toNat / 8))) ∧
    tableLookup c = (decodeCmd c).toOption.toList

/-- R61, R63: decoding the word of a command gives the command back, for every command (they have no operands, R62). -/
def Obligations.DecodeOfEncodeIsIdentity : Prop :=
  ∀ i : Instr, i.wellFormed = true ∧ decodeCmd (encode i) = .command i

/-! ### A step runs the command written to `CMD` -/

/-- R14, R60, R177: when the next host event writes a legal word to `CMD` of an idle block, the step is the whole command,
run in the accepted state (`CMD <- v[7:0]`, `STATUS <- 0x01`); bits 63:8 of the written value are ignored. The coarse grain is
the model's choice (log 1), and so is `checked` (log 10). -/
def Obligations.StepRunsTheDecodedCommand : Prop :=
  ∀ (s : State) (v : Word) (es : List HostEvent) (i : Instr),
    s.busy = false → s.grain = .command → s.inputs = .regWrite 0 v :: es →
    decodeCmd (v.extractLsb' 0 8) = .command i →
    step s = exec i { s with inputs := es, cmd := v.extractLsb' 0 8, status := 0x01, checked := false }

/-- R66, R144: an illegal word is accepted and completes at once with `ILLEGAL_COMMAND`; nothing else changes
(`grain` and `checked` are the model's own fields, log 1 and log 10). -/
def Obligations.IllegalWordCompletesWithError : Prop :=
  ∀ (s : State) (v : Word) (es : List HostEvent),
    s.busy = false → s.grain = .command → s.inputs = .regWrite 0 v :: es →
    5 ≤ (v.extractLsb' 0 8).toNat →
    step s = .next { s with
      inputs := es
      cmd := v.extractLsb' 0 8
      status := 0x46
      errinfo0 := 0
      errinfo1 := (v.extractLsb' 0 8).setWidth 64
      errinfo2 := 0
      checked := false }

/-- R160: between commands the engine is idle with all state held. That a step with nothing pending exists is the model's choice
(log 3). -/
def Obligations.IdleStepHoldsAllState : Prop :=
  ∀ s : State, s.busy = false → s.inputs = [] → step s = .next s

/-! ### NOP, RDBIT, WRBIT -/

/-- R86: NOP, the word 0x00, completes whatever the state: clean status, `ERRINFO0..2` = 0, everything else as before. -/
def Obligations.NopCompletesCleanly : Prop :=
  encode .nop = 0x00 ∧
  ∀ s : State, exec .nop s = .next { s with status := 0x02, errinfo0 := 0, errinfo1 := 0, errinfo2 := 0 }

/-- R84: RDBIT, the word 0x03. Its two errors in their order, each with its context values and nothing else changed; otherwise
it reads the LSB at `BITIDX` into `BITDAT`, and nothing else but `STATUS` and `ERRINFO0..2` is written. It needs no 64-byte
buffer. -/
def Obligations.RdbitReadsTheBit : Prop :=
  encode .rdbit = 0x03 ∧
  ∀ s : State,
    (s.params.pixCap < s.nlen.toNat →
      exec .rdbit s = .next { s with
        status := 0x56, errinfo0 := BitVec.ofNat 64 s.params.pixCap, errinfo1 := s.nlen, errinfo2 := 0 }) ∧
    (s.nlen.toNat ≤ s.params.pixCap → s.nlen.toNat ≤ s.bitidx.toNat →
      exec .rdbit s = .next { s with status := 0x36, errinfo0 := s.nlen, errinfo1 := s.bitidx, errinfo2 := 0 }) ∧
    (∀ v, s.nlen.toNat ≤ s.params.pixCap → s.bitidx.toNat < s.nlen.toNat →
      Memory.read s.pix s.bitidx.toNat = some v →
      exec .rdbit s = .next { s with
        bitdat := BitVec.ofNat 1 (v.toNat % 2), status := 0x02, errinfo0 := 0, errinfo1 := 0, errinfo2 := 0 })

/-- R85: WRBIT, the word 0x04. Its two errors in their order, each with its context values and nothing else changed; otherwise
it writes `BITDAT` to bit 0 of `PIX[BITIDX]`, keeps its bits 7:1 and every other element, and writes nothing else but `STATUS`
and `ERRINFO0..2`. -/
def Obligations.WrbitWritesTheBit : Prop :=
  encode .wrbit = 0x04 ∧
  ∀ s : State,
    (s.params.pixCap < s.nlen.toNat →
      exec .wrbit s = .next { s with
        status := 0x56, errinfo0 := BitVec.ofNat 64 s.params.pixCap, errinfo1 := s.nlen, errinfo2 := 0 }) ∧
    (s.nlen.toNat ≤ s.params.pixCap → s.nlen.toNat ≤ s.bitidx.toNat →
      exec .wrbit s = .next { s with status := 0x36, errinfo0 := s.nlen, errinfo1 := s.bitidx, errinfo2 := 0 }) ∧
    (∀ old, s.nlen.toNat ≤ s.params.pixCap → s.bitidx.toNat < s.nlen.toNat →
      Memory.read s.pix s.bitidx.toNat = some old →
      ∃ t, exec .wrbit s = .next t ∧
        Memory.read t.pix s.bitidx.toNat = some (withLsb old s.bitdat) ∧
        (∀ a, a ≠ s.bitidx.toNat → Memory.read t.pix a = Memory.read s.pix a) ∧
        t = { s with pix := t.pix, status := 0x02, errinfo0 := 0, errinfo1 := 0, errinfo2 := 0 })

/-- RDBIT and WRBIT of an element never written since reset are refused: RDBIT because R172 says that a model should. For WRBIT
it is the model's choice (log 6): R172 also says that such a write leaves bit 0 specified. -/
def Obligations.BitCommandsRefuseUnwritten : Prop :=
  ∀ (s : State) (i : Instr), i = .rdbit ∨ i = .wrbit →
    s.nlen.toNat ≤ s.params.pixCap → s.bitidx.toNat < s.nlen.toNat →
    Memory.read s.pix s.bitidx.toNat = none →
    exec i s = .refused (.unwritten .pix s.bitidx.toNat)

/-! ### ENCODE -/

/-- R106 (with R100, R102, R146): ENCODE completes on every ready state, with the closed form of its result: the header
bits, the payload bits, every other element unchanged, `BINSIZE`, the truncation warning, and nothing else written. -/
def Obligations.EncodeEmbedsTheText : Prop :=
  ∀ (s : State) (bs : Nat), EncodeReady s →
    bs = min (s.nlen.toNat - 64) (8 * s.tlen.toNat) →
    ∃ t, exec .encode s = .next t ∧
      (∀ p old, p < 64 → Memory.read s.pix p = some old →
        Memory.read t.pix p = some (withLsb old (headerBit bs p))) ∧
      (∀ p old cp, 64 ≤ p → p < 64 + bs → Memory.read s.pix p = some old →
        Memory.read s.txt ((p - 64) / 8) = some cp →
        Memory.read t.pix p = some (withLsb old (payloadBit cp p))) ∧
      (∀ p, 64 + bs ≤ p → Memory.read t.pix p = Memory.read s.pix p) ∧
      t.binsize.toNat = bs ∧
      t.status = (if s.nlen.toNat - 64 < 8 * s.tlen.toNat then 0x0A else 0x02) ∧
      t.visible = State.visible { s with
        pix := t.pix, binsize := t.binsize, status := t.status, errinfo0 := 0, errinfo1 := 0, errinfo2 := 0 }

/-- R101, R141, R142, R145, R148: the errors of ENCODE in their order, each with its context values and nothing else
changed; the reported index is the lowest offending one. -/
def Obligations.EncodeRaisesInOrder : Prop :=
  ∀ s : State,
    (s.params.pixCap < s.nlen.toNat →
      exec .encode s = .next { s with
        status := 0x56, errinfo0 := BitVec.ofNat 64 s.params.pixCap, errinfo1 := s.nlen, errinfo2 := 0 }) ∧
    (s.nlen.toNat ≤ s.params.pixCap → s.params.txtCap < s.tlen.toNat →
      exec .encode s = .next { s with
        status := 0x56, errinfo0 := BitVec.ofNat 64 s.params.txtCap, errinfo1 := s.tlen, errinfo2 := 1 }) ∧
    (s.nlen.toNat ≤ s.params.pixCap → s.tlen.toNat ≤ s.params.txtCap → s.nlen.toNat < 64 →
      exec .encode s = .next { s with status := 0x16, errinfo0 := 64, errinfo1 := s.nlen, errinfo2 := 0 }) ∧
    (∀ k cp, s.nlen.toNat ≤ s.params.pixCap → s.tlen.toNat ≤ s.params.txtCap → 64 ≤ s.nlen.toNat →
      k < s.tlen.toNat → TextPrefixReady s k → Memory.read s.txt k = some cp → 255 < cp.toNat →
      exec .encode s = .next { s with
        status := 0x26, errinfo0 := 255, errinfo1 := cp, errinfo2 := BitVec.ofNat 64 k })

/-- R108, R172: ENCODE refuses the first element it reads that was never written since reset, of the text or of the
positions it would write. Which one it names is the model's choice (log 20). -/
def Obligations.EncodeRefusesUnwritten : Prop :=
  ∀ s : State, s.nlen.toNat ≤ s.params.pixCap → s.tlen.toNat ≤ s.params.txtCap → 64 ≤ s.nlen.toNat →
    (∀ k, k < s.tlen.toNat → TextPrefixReady s k → Memory.read s.txt k = none →
      exec .encode s = .refused (.unwritten .txt k)) ∧
    (∀ p, TextPrefixReady s s.tlen.toNat → p < 64 + min (s.nlen.toNat - 64) (8 * s.tlen.toNat) →
      PixLoaded s 0 p → Memory.read s.pix p = none →
      exec .encode s = .refused (.unwritten .pix p))

/-- R107: whatever ENCODE does to `PIX`, bits 7:1 stay, no value moves by more than 1, no element from position
`64 + bin_size` on changes, no element gains or loses its value, and the buffer keeps its length. -/
def Obligations.EncodeChangesOnlyLsbs : Prop :=
  ∀ (s t : State), exec .encode s = .next t →
    (∀ p, (Memory.read t.pix p).isSome = (Memory.read s.pix p).isSome) ∧
    (∀ p old new, Memory.read s.pix p = some old → Memory.read t.pix p = some new →
      new.extractLsb' 1 7 = old.extractLsb' 1 7 ∧ new.toNat ≤ old.toNat + 1 ∧ old.toNat ≤ new.toNat + 1) ∧
    (∀ p, 64 + min (s.nlen.toNat - 64) (8 * s.tlen.toNat) ≤ p → Memory.read t.pix p = Memory.read s.pix p) ∧
    t.nlen = s.nlen

/-- R106, R109: ENCODE overwrites, it does not combine: two buffers that agree on bits 7:1 (and on nothing else) get the
same bytes at every position it writes, and the same `BINSIZE` and `STATUS`. -/
def Obligations.EncodeIgnoresOldLsbs : Prop :=
  ∀ (s s' t : State),
    s'.params = s.params → s'.nlen = s.nlen → s'.tlen = s.tlen →
    (∀ k, k < s.tlen.toNat → Memory.read s'.txt k = Memory.read s.txt k) →
    (∀ p, p < s.nlen.toNat →
      (Memory.read s'.pix p).map (fun v => v.extractLsb' 1 7) = (Memory.read s.pix p).map (fun v => v.extractLsb' 1 7)) →
    exec .encode s = .next t → t.err = false →
    ∃ t', exec .encode s' = .next t' ∧ t'.binsize = t.binsize ∧ t'.status = t.status ∧
      ∀ p, p < 64 + t.binsize.toNat → Memory.read t'.pix p = Memory.read t.pix p

/-- R48, R108: ENCODE repeated with the same operands changes no byte of `PIX`. -/
def Obligations.EncodeTwiceChangesNothing : Prop :=
  ∀ (s t : State), exec .encode s = .next t → t.err = false →
    ∃ u, exec .encode t = .next u ∧ u.binsize = t.binsize ∧ u.status = t.status ∧
      ∀ p, Memory.read u.pix p = Memory.read t.pix p

/-! ### DECODE -/

/-- R128 (with R120, R124, R126): DECODE completes on every ready state, with the closed form of its result, and writes
nothing else. The header is not validated. -/
def Obligations.DecodeExtractsTheText : Prop :=
  ∀ s : State, DecodeReady s →
    ∃ t, exec .decode s = .next t ∧
      t.binsize.toNat = headerValue s ∧
      t.outlen.toNat = decodedLength s ∧
      (∀ k, k < decodedLength s → Memory.read t.out k = some (BitVec.ofNat 8 (chunkValue s k)) ∧ chunkValue s k < 256) ∧
      (∀ k, decodedLength s ≤ k → Memory.read t.out k = Memory.read s.out k) ∧
      t.visible = State.visible { s with
        out := t.out, outlen := t.outlen, binsize := t.binsize
        status := 0x02, errinfo0 := 0, errinfo1 := 0, errinfo2 := 0 }

/-- R121, R141, R145, R148: the errors of DECODE in their order, with nothing else changed. -/
def Obligations.DecodeRaisesInOrder : Prop :=
  ∀ s : State,
    (s.params.pixCap < s.nlen.toNat →
      exec .decode s = .next { s with
        status := 0x56, errinfo0 := BitVec.ofNat 64 s.params.pixCap, errinfo1 := s.nlen, errinfo2 := 0 }) ∧
    (s.nlen.toNat ≤ s.params.pixCap → s.nlen.toNat < 64 →
      exec .decode s = .next { s with status := 0x16, errinfo0 := 64, errinfo1 := s.nlen, errinfo2 := 0 })

/-- R133, R172: DECODE refuses the first element it reads that was never written since reset, of the header or of the
chunks it would take. Which one it names is the model's choice (log 20). -/
def Obligations.DecodeRefusesUnwritten : Prop :=
  ∀ s : State, s.params.outCapLegal = true → s.nlen.toNat ≤ s.params.pixCap → 64 ≤ s.nlen.toNat →
    (∀ p, p < 64 → PixLoaded s 0 p → Memory.read s.pix p = none →
      exec .decode s = .refused (.unwritten .pix p)) ∧
    (∀ p, PixLoaded s 0 64 → 64 ≤ p → p < 64 + 8 * decodedLength s → PixLoaded s 64 p → Memory.read s.pix p = none →
      exec .decode s = .refused (.unwritten .pix p))

/-- R134: the result of DECODE is a function of `NLEN` and the LSBs of `PIX[0..NLEN)` alone: two states that agree on these
(and on the parameters) end alike, whatever else differs; and DECODE does not write `PIX`, `TXT`, `NLEN`, `TLEN`, `BITIDX`,
`BITDAT`. -/
def Obligations.DecodeDependsOnlyOnLsbs : Prop :=
  ∀ (s s' t : State),
    s'.params = s.params → s'.nlen = s.nlen →
    (∀ p, p < s.nlen.toNat →
      (Memory.read s'.pix p).map (fun v => v.toNat % 2) = (Memory.read s.pix p).map (fun v => v.toNat % 2)) →
    exec .decode s = .next t →
    (t.pix = s.pix ∧ t.txt = s.txt ∧ t.nlen = s.nlen ∧ t.tlen = s.tlen ∧ t.bitidx = s.bitidx ∧ t.bitdat = s.bitdat) ∧
    ∃ t', exec .decode s' = .next t' ∧
      t'.status = t.status ∧ t'.errinfo0 = t.errinfo0 ∧ t'.errinfo1 = t.errinfo1 ∧ t'.errinfo2 = t.errinfo2 ∧
      (t.err = false →
        t'.binsize = t.binsize ∧ t'.outlen = t.outlen ∧
        ∀ k, k < t.outlen.toNat → Memory.read t'.out k = Memory.read t.out k)

/-- R129: two DECODE commands in a row leave the same text, `OUTLEN`, `BINSIZE` and `STATUS`, and `PIX` as it was. -/
def Obligations.DecodeTwiceIsTheSame : Prop :=
  ∀ (s t : State), exec .decode s = .next t → t.err = false →
    ∃ u, exec .decode t = .next u ∧ t.pix = s.pix ∧ u.pix = s.pix ∧
      u.outlen = t.outlen ∧ u.binsize = t.binsize ∧ u.status = t.status ∧
      ∀ k, Memory.read u.out k = Memory.read t.out k

/-! ### DECODE after ENCODE -/

/-- R130: the round trip, for every text of code points 0 to 255 that fits. `u` is any later state with the same `NLEN`
(and parameters) and the same elements `PIX[0..64+8*TLEN)`. -/
def Obligations.RoundTripReturnsTheText : Prop :=
  ∀ (s t u : State), s.params.outCapLegal = true →
    exec .encode s = .next t → t.err = false → 8 * s.tlen.toNat ≤ s.nlen.toNat - 64 →
    u.params = s.params → u.nlen = s.nlen →
    (∀ p, p < 64 + 8 * s.tlen.toNat → Memory.read u.pix p = Memory.read t.pix p) →
    ∃ v, exec .decode u = .next v ∧
      t.status = 0x02 ∧ v.status = 0x02 ∧ v.binsize.toNat = 8 * s.tlen.toNat ∧ v.outlen = s.tlen ∧
      ∀ k, k < s.tlen.toNat → ∃ cp, Memory.read s.txt k = some cp ∧ cp.toNat ≤ 255 ∧
        Memory.read v.out k = some (cp.setWidth 8)

/-- R131: the truncation round trip: a warning, `BINSIZE = NLEN - 64`, and DECODE of the buffer gives the text cut to its
first `(NLEN - 64) div 8` characters; the bits of the half-written next character are in the buffer. -/
def Obligations.TruncationRoundTripCutsTheText : Prop :=
  ∀ (s t u : State), s.params.outCapLegal = true →
    exec .encode s = .next t → t.err = false → s.nlen.toNat - 64 < 8 * s.tlen.toNat →
    u.params = s.params → u.nlen = s.nlen →
    (∀ p, p < s.nlen.toNat → Memory.read u.pix p = Memory.read t.pix p) →
    t.warnTrunc = true ∧ t.binsize.toNat = s.nlen.toNat - 64 ∧
    (∀ p, 64 ≤ p → p < s.nlen.toNat → ∃ cp old, Memory.read s.txt ((p - 64) / 8) = some cp ∧
      Memory.read s.pix p = some old ∧ Memory.read t.pix p = some (withLsb old (payloadBit cp p))) ∧
    ∃ v, exec .decode u = .next v ∧ v.outlen.toNat = (s.nlen.toNat - 64) / 8 ∧
      ∀ k, k < (s.nlen.toNat - 64) / 8 → ∃ cp, Memory.read s.txt k = some cp ∧ cp.toNat ≤ 255 ∧
        Memory.read v.out k = some (cp.setWidth 8)

/-- R132: after an ENCODE of the empty text, or into a buffer of exactly 64 elements, DECODE returns the empty text and
writes no `OUT` element. -/
def Obligations.EmptyPayloadDecodesToNothing : Prop :=
  ∀ (s t : State), exec .encode s = .next t → t.err = false → s.tlen.toNat = 0 ∨ s.nlen.toNat = 64 →
    ∃ v, exec .decode t = .next v ∧
      t.binsize = 0 ∧ v.binsize = 0 ∧ v.outlen = 0 ∧ v.out = s.out ∧
      (t.warnTrunc = true ↔ s.tlen.toNat ≠ 0)

/-! ### What every command does and leaves alone -/

/-- R147: a command that ends in a fatal error has recorded its code and its three context values in `STATUS` and
`ERRINFO0..2`, and changed nothing else at all. -/
def Obligations.FatalErrorsArePrecise : Prop :=
  ∀ (i : Instr) (s t : State), exec i s = .next t → t.err = true →
    ∃ e : FatalError, e.code ≠ .illegalCommand ∧
      t = { s with
        errinfo0 := e.expected
        errinfo1 := e.actual
        errinfo2 := e.index
        status := (errNumber e.code <<< 4) ||| 0x06#8 }

/-- R37 (R36 e, D28): which command writes what on success, and on a fatal error only `STATUS` and `ERRINFO0..2`. -/
def Obligations.CommandsWriteOnlyTheirResults : Prop :=
  ∀ (i : Instr) (s t : State), exec i s = .next t →
    (t.err = true →
      t = { s with status := t.status, errinfo0 := t.errinfo0, errinfo1 := t.errinfo1, errinfo2 := t.errinfo2 }) ∧
    (t.params = s.params ∧ t.cmd = s.cmd ∧ t.nlen = s.nlen ∧ t.tlen = s.tlen ∧ t.bitidx = s.bitidx ∧ t.txt = s.txt) ∧
    (i ≠ .rdbit → t.bitdat = s.bitdat) ∧
    (i ≠ .encode → i ≠ .decode → t.binsize = s.binsize) ∧
    (i ≠ .decode → t.outlen = s.outlen ∧ t.out = s.out) ∧
    (i = .decode → t.err = false → ∀ k, t.outlen.toNat ≤ k → Memory.read t.out k = Memory.read s.out k) ∧
    (i ≠ .encode → i ≠ .wrbit → t.pix = s.pix) ∧
    (i = .wrbit → ∀ p, p ≠ s.bitidx.toNat → Memory.read t.pix p = Memory.read s.pix p) ∧
    (i = .encode → t.err = false → ∀ p, 64 + t.binsize.toNat ≤ p → Memory.read t.pix p = Memory.read s.pix p) ∧
    (∀ p, (Memory.read t.pix p).map (fun v => v.extractLsb' 1 7) = (Memory.read s.pix p).map (fun v => v.extractLsb' 1 7)) ∧
    (∀ p, s.nlen.toNat ≤ p → Memory.read t.pix p = Memory.read s.pix p)

/-- R27, R152: no command's result depends on the outcome of an earlier one: `STATUS` and `ERRINFO0..2` are not read. -/
def Obligations.CommandsReadNoFlag : Prop :=
  ∀ (i : Instr) (s : State) (st : Byte) (e0 e1 e2 : Word),
    exec i { s with status := st, errinfo0 := e0, errinfo1 := e1, errinfo2 := e2 } = exec i s

/-- R149 (R15, R27, R146): after any command `DONE` = 1 and `BUSY` = 0; without an error `STATUS` is 0x0A when the text of an
ENCODE did not fit and 0x02 otherwise, `ERRCODE` and `ERRINFO0..2` are 0; with one `WARN_TRUNC` is 0 and `ERRCODE` 1 to 5. -/
def Obligations.CompletionSetsTheFlags : Prop :=
  ∀ (i : Instr) (s t : State), exec i s = .next t →
    t.done = true ∧ t.busy = false ∧
    (t.warnTrunc = true ↔ i = .encode ∧ t.err = false ∧ s.nlen.toNat - 64 < 8 * s.tlen.toNat) ∧
    (t.err = false → (t.status = if t.warnTrunc then 0x0A else 0x02) ∧
      t.errcode = 0 ∧ t.errinfo0 = 0 ∧ t.errinfo1 = 0 ∧ t.errinfo2 = 0) ∧
    (t.err = true → 1 ≤ t.errcode ∧ t.errcode ≤ 5)

/-! ### Invariants -/

/-- R36, R171, R172: the invariant holds after reset, for every legal choice of the parameters. -/
def Obligations.ResetSatisfiesTheInvariant : Prop :=
  (∀ p : Params, p.legal = true → (State.resetWith p).Inv) ∧ State.reset.Inv

/-- R36: every step, of a command, of the host or of a reset, keeps the invariant. -/
def Obligations.StepKeepsTheInvariant : Prop :=
  ∀ (s t : State), s.Inv → step s = .next t → t.Inv

/-- R6, R124: with legal parameters no step faults: DECODE can never overrun `OUT`. -/
def Obligations.NoStepFaults : Prop :=
  ∀ (s : State) (f : Fault), s.Inv → step s ≠ .fault f

/-- R21, R30: in every state that keeps the invariant the host can read the whole decoded text `OUT[0..OUTLEN)`. -/
def Obligations.DecodedTextIsReadable : Prop :=
  ∀ (s : State) (k : Nat) (es : List HostEvent), s.Inv → s.busy = false → s.inputs = .outRead k :: es →
    k < s.outlen.toNat →
    ∃ v, Memory.read s.out k = some v ∧
      step s = .next { s with inputs := es, replies := s.replies ++ [.out k v] }

/-- R32: no step changes the parameters. -/
def Obligations.StepKeepsTheParameters : Prop :=
  ∀ (s t : State), step s = .next t → t.params = s.params

/-! ### Whole-machine rules -/

/-- R171: once it is not 0x00, `STATUS` becomes 0x00 by a reset only. -/
def Obligations.OnlyResetClearsStatus : Prop :=
  ∀ (s t : State), step s = .next t → s.status ≠ 0x00 → t.status = 0x00 → s.takes .reset

/-- R10, R30: a step that changes `OUT` runs DECODE (whole, or a turn of it) or takes a reset. -/
def Obligations.OutChangesOnlyByDecodeOrReset : Prop :=
  ∀ (s t : State), step s = .next t → t.out ≠ s.out → s.runsDecode ∨ s.takes .reset

/-- R28, R41: bits 7:1 of an element of `PIX` change by a `PixWrite` to an idle block or a reset only, no command reaches
them. -/
def Obligations.UpperBitsChangeOnlyByTheHost : Prop :=
  ∀ (s t : State), step s = .next t →
    (∀ p, (Memory.read t.pix p).map (fun v => v.extractLsb' 1 7) = (Memory.read s.pix p).map (fun v => v.extractLsb' 1 7)) ∨
    s.takes .reset ∨ (s.busy = false ∧ ∃ a v, s.takes (.pixWrite a v))

/-- R14, R16, R17, R18, R29: in a step that takes no reset, `CMD`, `NLEN`, `TLEN` and `BITIDX` each change only by a
`RegWrite` of their own register to an idle block, which gives the new value, and `TXT` only by a `TxtWrite` to an idle block.
No command changes any of them. -/
def Obligations.OperandsChangeOnlyByTheHost : Prop :=
  ∀ (s t : State), step s = .next t →
    s.takes .reset ∨
    (t.cmd = s.cmd ∨ (s.busy = false ∧ ∃ v : Word, s.takes (.regWrite 0 v) ∧ t.cmd = v.extractLsb' 0 8)) ∧
    (t.nlen = s.nlen ∨ (s.busy = false ∧ s.takes (.regWrite 2 t.nlen))) ∧
    (t.tlen = s.tlen ∨ (s.busy = false ∧ s.takes (.regWrite 3 t.tlen))) ∧
    (t.bitidx = s.bitidx ∨ (s.busy = false ∧ s.takes (.regWrite 4 t.bitidx))) ∧
    (t.txt = s.txt ∨ (s.busy = false ∧ ∃ a v, s.takes (.txtWrite a v)))

/-! ### The controller and the packer -/

/-- R82: the laws of `LsbRead` and `LsbWrite` on loaded elements: read after write, frame, idempotence, last write wins, no-op
when equal, writes to different positions commute, bounded change. Equal memories are equal lists in the canonical form. -/
def Obligations.LsbPrimitivesObeyTheirLaws : Prop :=
  ∀ (m : Memory Byte) (p : Nat) (a b : Bit) (old : Byte), Memory.wf m = true → Memory.read m p = some old →
    ∃ ma mb, lsbWrite m p a = .next ma ∧ lsbWrite m p b = .next mb ∧
      lsbRead mb p = .next b ∧
      (∀ q, q ≠ p → Memory.read mb q = Memory.read m q) ∧
      lsbWrite mb p b = .next mb ∧
      lsbWrite ma p b = .next mb ∧
      (lsbRead m p = .next b → mb = m) ∧
      (∀ q, q ≠ p → (∃ v, Memory.read m q = some v) →
        ∃ mq m', lsbWrite m q a = .next mq ∧ lsbWrite mq p b = .next m' ∧ lsbWrite mb q a = .next m') ∧
      (∃ new, Memory.read mb p = some new ∧ new.extractLsb' 1 7 = old.extractLsb' 1 7 ∧
        (new.toNat : Int) - old.toNat = b.toNat - (old.toNat % 2 : Nat))

/-- R90, R95 laws 1 to 3: `Bits` has its width and its elements, and `Bits` and `Val` are inverse. -/
def Obligations.BitsAndValAreInverse : Prop :=
  (∀ w v, (bits w v).length = w ∧ ∀ j, j < w → (bits w v)[j]? = some (BitVec.ofNat 1 (v / 2 ^ (w - 1 - j) % 2))) ∧
  (∀ w v, v < 2 ^ w → val (bits w v) = v) ∧
  (∀ s : List Bit, val s < 2 ^ s.length ∧ bits s.length (val s) = s)

/-- R95 laws 5 and 6: packing and valuing a concatenation. -/
def Obligations.PackAndValSplit : Prop :=
  (∀ (m : Memory Byte) (p : Nat) (s t : List Bit),
    packBits m p (s ++ t) = andThen (packBits m p s) fun m' => packBits m' (p + s.length) t) ∧
  (∀ s t : List Bit, val (s ++ t) = val s * 2 ^ t.length + val t)

/-- R93, R95 law 4: packing succeeds on loaded positions, what was packed is unpacked again, and only bit 0 of the packed
elements changes. -/
def Obligations.UnpackReturnsWhatWasPacked : Prop :=
  ∀ (m : Memory Byte) (p : Nat) (s : List Bit),
    (∀ j, j < s.length → ∃ v, Memory.read m (p + j) = some v) →
    ∃ m', packBits m p s = .next m' ∧ unpackBits m' p s.length = .next s ∧
      (∀ q, q < p ∨ p + s.length ≤ q → Memory.read m' q = Memory.read m q) ∧
      (∀ q, (Memory.read m' q).map (fun v => v.extractLsb' 1 7) = (Memory.read m q).map (fun v => v.extractLsb' 1 7))

/-- R92, R95 laws 7 and 8: the elements of `TextBits`, its prefixes, and the value of each character. -/
def Obligations.TextBitsSpellTheText : Prop :=
  ∀ cps : List CodePoint,
    (textBits cps).length = 8 * cps.length ∧
    (∀ q cp, cps[q / 8]? = some cp → (textBits cps)[q]? = some (BitVec.ofNat 1 (cp.toNat / 2 ^ (7 - q % 8) % 2))) ∧
    (∀ m, m ≤ cps.length → (textBits cps).take (8 * m) = textBits (cps.take m)) ∧
    (∀ k cp, cps[k]? = some cp → ((textBits cps).drop (8 * k)).take 8 = bits 8 cp.toNat ∧
      (cp.toNat ≤ 255 → val (((textBits cps).drop (8 * k)).take 8) = cp.toNat))

/-! ### The host port -/

/-- R13, R25, R26: `RegRead(r)` returns the register zero-extended, 0 for numbers 11 and above, and changes nothing but
what has been returned (R48). -/
def Obligations.RegisterReadsReturnTheRegister : Prop :=
  ∀ (s : State) (r : Nat) (es : List HostEvent), s.busy = false → s.inputs = .regRead r :: es →
    ∃ v : Word, step s = .next { s with inputs := es, replies := s.replies ++ [.reg r v] } ∧
      (r = 0 → v.toNat = s.cmd.toNat) ∧ (r = 1 → v.toNat = s.status.toNat) ∧ (r = 2 → v = s.nlen) ∧
      (r = 3 → v = s.tlen) ∧ (r = 4 → v = s.bitidx) ∧ (r = 5 → v.toNat = s.bitdat.toNat) ∧
      (r = 6 → v = s.binsize) ∧ (r = 7 → v = s.outlen) ∧ (r = 8 → v = s.errinfo0) ∧
      (r = 9 → v = s.errinfo1) ∧ (r = 10 → v = s.errinfo2) ∧ (11 ≤ r → v = 0)

/-- R13, R15, R25, R26: a register write other than to `CMD` sets the operand register from the low bits of the value;
the read-only registers and numbers 11 and above do not change. -/
def Obligations.RegisterWritesSetTheOperand : Prop :=
  ∀ (s : State) (r : Nat) (v : Word) (es : List HostEvent), s.busy = false → s.inputs = .regWrite r v :: es →
    (r = 2 → step s = .next { s with inputs := es, nlen := v }) ∧
    (r = 3 → step s = .next { s with inputs := es, tlen := v }) ∧
    (r = 4 → step s = .next { s with inputs := es, bitidx := v }) ∧
    (r = 5 → step s = .next { s with inputs := es, bitdat := BitVec.ofNat 1 (v.toNat % 2) }) ∧
    (r = 1 ∨ 6 ≤ r → step s = .next { s with inputs := es })

/-- R10, R56: `PixWrite` stores one element and leaves every other; at or above the capacity it has no effect. -/
def Obligations.PixWriteStoresOneElement : Prop :=
  ∀ (s : State) (a : Nat) (v : Byte) (es : List HostEvent), s.busy = false → s.inputs = .pixWrite a v :: es →
    (a < s.params.pixCap → ∃ t, step s = .next t ∧ Memory.read t.pix a = some v ∧
      (∀ b, b ≠ a → Memory.read t.pix b = Memory.read s.pix b) ∧ t = { s with inputs := es, pix := t.pix }) ∧
    (s.params.pixCap ≤ a → step s = .next { s with inputs := es })

/-- R10, R56: `TxtWrite` of a `CP_WIDTH`-bit value stores one element and leaves every other; at or above the capacity it
has no effect. A `TxtWrite` of any other value, which R10 does not have, is refused: the model's choice (log 12). -/
def Obligations.TxtWriteStoresOneElement : Prop :=
  ∀ (s : State) (a : Nat) (v : CodePoint) (es : List HostEvent), s.busy = false → s.inputs = .txtWrite a v :: es →
    (v.toNat < 2 ^ s.params.cpWidth → a < s.params.txtCap → ∃ t, step s = .next t ∧ Memory.read t.txt a = some v ∧
      (∀ b, b ≠ a → Memory.read t.txt b = Memory.read s.txt b) ∧ t = { s with inputs := es, txt := t.txt }) ∧
    (v.toNat < 2 ^ s.params.cpWidth → s.params.txtCap ≤ a → step s = .next { s with inputs := es }) ∧
    (2 ^ s.params.cpWidth ≤ v.toNat → step s = .refused (.txtValueTooWide a v))

/-- R10, R48: a host read of a written element of `PIX`, `TXT` or `OUT` returns it and changes nothing but what has been
returned. -/
def Obligations.MemoryReadsReturnTheElement : Prop :=
  ∀ (s : State) (a : Nat) (es : List HostEvent), s.busy = false →
    (∀ v, s.inputs = .pixRead a :: es → a < s.params.pixCap → Memory.read s.pix a = some v →
      step s = .next { s with inputs := es, replies := s.replies ++ [.pix a v] }) ∧
    (∀ v, s.inputs = .txtRead a :: es → a < s.params.txtCap → Memory.read s.txt a = some v →
      step s = .next { s with inputs := es, replies := s.replies ++ [.txt a v] }) ∧
    (∀ v, s.inputs = .outRead a :: es → a < s.params.outCap → Memory.read s.out a = some v →
      step s = .next { s with inputs := es, replies := s.replies ++ [.out a v] })

/-- R56, R172, X1, X5: a host read outside a memory, or of an element never written since reset, is refused (log 5, log 12). -/
def Obligations.MemoryReadsWithoutValueAreRefused : Prop :=
  ∀ (s : State) (a : Nat) (es : List HostEvent), s.busy = false →
    (s.inputs = .pixRead a :: es → s.params.pixCap ≤ a → step s = .refused (.outsideMemory .pix a)) ∧
    (s.inputs = .txtRead a :: es → s.params.txtCap ≤ a → step s = .refused (.outsideMemory .txt a)) ∧
    (s.inputs = .outRead a :: es → s.params.outCap ≤ a → step s = .refused (.outsideMemory .out a)) ∧
    (s.inputs = .pixRead a :: es → a < s.params.pixCap → Memory.read s.pix a = none →
      step s = .refused (.unwritten .pix a)) ∧
    (s.inputs = .txtRead a :: es → a < s.params.txtCap → Memory.read s.txt a = none →
      step s = .refused (.unwritten .txt a)) ∧
    (s.inputs = .outRead a :: es → a < s.params.outCap → Memory.read s.out a = none →
      step s = .refused (.unwritten .out a))

/-! ### The busy window and the micro-sequences -/

/-- R176: in the fine grain a `CMD` write to an idle block is accepted: `CMD <- v[7:0]`, `STATUS <- 0x01`, nothing else.
The fine grain is the model's choice (log 1), and so is `checked` (log 10). -/
def Obligations.AcceptOpensTheBusyWindow : Prop :=
  ∀ (s : State) (v : Word) (es : List HostEvent), s.busy = false → s.grain = .request →
    s.inputs = .regWrite 0 v :: es →
    step s = .next { s with inputs := es, cmd := v.extractLsb' 0 8, status := 0x01, checked := false }

/-- R176, R178: while a command runs a host write of a register (`CMD` among them) or a memory element is ignored. -/
def Obligations.BusyHostWritesAreIgnored : Prop :=
  ∀ (s : State) (e : HostEvent) (es : List HostEvent) (ts : List Agent), s.busy = true → s.turns = .host :: ts →
    s.inputs = e :: es →
    ((∃ r v, e = .regWrite r v) ∨ (∃ a v, e = .pixWrite a v) ∨ (∃ a v, e = .txtWrite a v)) →
    step s = .next { s with turns := ts, inputs := es }

/-- R178: while a command runs a read of `STATUS` returns 0x01 (`s.Inv` makes `STATUS` 0x01 when busy). Any other host read is
refused: the model's choice (log 11), after X3, since R178 leaves the value unspecified. -/
def Obligations.BusyHostReadsOnlyStatus : Prop :=
  ∀ (s : State) (e : HostEvent) (es : List HostEvent) (ts : List Agent), s.Inv → s.busy = true →
    s.turns = .host :: ts → s.inputs = e :: es →
    (e = .regRead 1 → step s = .next { s with turns := ts, inputs := es, replies := s.replies ++ [.reg 1 1] }) ∧
    ((∃ r, r ≠ 1 ∧ e = .regRead r) ∨ (∃ a, e = .pixRead a) ∨ (∃ a, e = .txtRead a) ∨ (∃ a, e = .outRead a) →
      step s = .refused .busyRead)

/-- R33 (R185, R186): `POS` is set to 0 when ENCODE or DECODE starts, advances by exactly 1 per bit position and never exceeds
`NLEN`, in every turn of the engine. A separate starting turn, one request a turn, a completing turn that leaves `POS`, and
`checked` are the model's choice (log 10, log 24). -/
def Obligations.CursorAdvancesByOne : Prop :=
  ∀ (s t : State) (ts : List Agent), s.engineMoves ts → s.cmd = 0x01 ∨ s.cmd = 0x02 → 64 ≤ s.nlen.toNat →
    step s = .next t →
    t.turns = ts ∧
    (s.checked = false → t.busy = true → t.pos = 0 ∧ t.checked = true) ∧
    (s.checked = true → t.busy = true → t.pos.toNat = s.pos.toNat + 1 ∧ t.pos.toNat ≤ s.nlen.toNat) ∧
    (t.busy = false → t.pos = s.pos)

/-- R185, R187: the micro-sequence of ENCODE, run from an accepted command, reaches the state of the atomic rule (hidden
values apart), in one turn if a check fails and otherwise in `64 + bin_size` requests with `POS` = `64 + bin_size`. The starting and
the completing turn, and that the latter leaves `POS`, are the model's choice (log 10, log 24). -/
def Obligations.EncodeWindowReachesTheAtomicResult : Prop :=
  ∀ (s t : State), s.busy = true → s.turns = [] → s.checked = false → s.cmd = 0x01 → exec .encode s = .next t →
    (t.err = true → Sys2Proof.core.run 1 s = .next t) ∧
    (t.err = false → ∃ u, Sys2Proof.core.run (64 + t.binsize.toNat + 2) s = .next u ∧
      u.visible = t.visible ∧ u.pos.toNat = 64 + t.binsize.toNat)

/-- R186, R187: the micro-sequence of DECODE, run from an accepted command, reaches the state of the atomic rule (hidden
values apart), in one turn if a check fails and otherwise in `64 + 8*OUTLEN` requests. The starting and the completing turn, and that
the latter leaves `POS`, are the model's choice (log 10, log 24). -/
def Obligations.DecodeWindowReachesTheAtomicResult : Prop :=
  ∀ (s t : State), s.busy = true → s.turns = [] → s.checked = false → s.cmd = 0x02 → exec .decode s = .next t →
    (t.err = true → Sys2Proof.core.run 1 s = .next t) ∧
    (t.err = false → ∃ u, Sys2Proof.core.run (64 + 8 * t.outlen.toNat + 2) s = .next u ∧
      u.visible = t.visible ∧ u.pos.toNat = 64 + 8 * t.outlen.toNat)

/-- R84, R85, R86, R66: in the fine grain NOP, RDBIT, WRBIT and an illegal word complete in one turn of the engine, with the
atomic result. One turn for them is the model's choice (log 10). -/
def Obligations.ShortCommandsCompleteInOneTurn : Prop :=
  ∀ (s : State) (ts : List Agent), s.engineMoves ts →
    (s.cmd = 0x00 → step s = exec .nop { s with turns := ts }) ∧
    (s.cmd = 0x03 → step s = exec .rdbit { s with turns := ts }) ∧
    (s.cmd = 0x04 → step s = exec .wrbit { s with turns := ts }) ∧
    (5 ≤ s.cmd.toNat → step s = .next { s with
      turns := ts, status := 0x46, errinfo0 := 0, errinfo1 := s.cmd.setWidth 64, errinfo2 := 0 })
end

