-- ==== Sys2Proof/Laws/Result.lean ====
section
/-! SUPPORT. What chained operations answer: one inversion lemma per outcome. -/

namespace Sys2Proof.Machine

@[simp] theorem andThen_next {α β : Type} (a : α) (f : α → Result β) :
    andThen (Host.Outcome.next a : Result α) f = f a := rfl

@[simp] theorem andThen_fault {α β : Type} (r : Fault) (f : α → Result β) :
    andThen (Host.Outcome.fault r : Result α) f = Host.Outcome.fault r := rfl

@[simp] theorem andThen_refused {α β : Type} (r : Refusal) (f : α → Result β) :
    andThen (Host.Outcome.refused r : Result α) f = Host.Outcome.refused r := rfl

theorem andThen_eq_next {α β : Type} {x : Result α} {f : α → Result β} {b : β} :
    andThen x f = .next b ↔ ∃ a, x = .next a ∧ f a = .next b := by
  cases x <;> simp

theorem andThen_eq_fault {α β : Type} {x : Result α} {f : α → Result β} {r : Fault} :
    andThen x f = .fault r ↔ x = .fault r ∨ ∃ a, x = .next a ∧ f a = .fault r := by
  cases x <;> simp

theorem andThen_eq_refused {α β : Type} {x : Result α} {f : α → Result β} {r : Refusal} :
    andThen x f = .refused r ↔ x = .refused r ∨ ∃ a, x = .next a ∧ f a = .refused r := by
  cases x <;> simp

theorem andThen_assoc {α β γ : Type} (x : Result α) (f : α → Result β) (g : β → Result γ) :
    andThen (andThen x f) g = andThen x fun a => andThen (f a) g := by
  cases x <;> rfl

@[simp] theorem guarded_error {α : Type} (e : FatalError) (s : State) (rest : α → Result State) :
    guarded (.next (.error e)) s rest = .next (raise e s) := rfl

@[simp] theorem guarded_ok {α : Type} (a : α) (s : State) (rest : α → Result State) :
    guarded (.next (.ok a)) s rest = rest a := rfl

@[simp] theorem guarded_refused {α : Type} (r : Refusal) (s : State) (rest : α → Result State) :
    guarded (.refused r) s rest = .refused r := rfl

@[simp] theorem guarded_fault {α : Type} (r : Fault) (s : State) (rest : α → Result State) :
    guarded (.fault r) s rest = .fault r := rfl

/-- A guarded command answers a next state either by raising or by going on. -/
theorem guarded_eq_next {α : Type} {c : Result (Except FatalError α)} {s t : State} {rest : α → Result State} :
    guarded c s rest = .next t ↔
      (∃ e, c = .next (.error e) ∧ t = raise e s) ∨ ∃ a, c = .next (.ok a) ∧ rest a = .next t := by
  rcases c with (e | a) | r | r <;> simp [eq_comm]

theorem guarded_eq_fault {α : Type} {c : Result (Except FatalError α)} {s : State} {rest : α → Result State} {r : Fault} :
    guarded c s rest = .fault r ↔ c = .fault r ∨ ∃ a, c = .next (.ok a) ∧ rest a = .fault r := by
  rcases c with (e | a) | r | r <;> simp

end Sys2Proof.Machine
end

