-- ==== Sys2Proof/Laws/Memory.lean ====
section
/-! SUPPORT. The laws of a memory: reading after writing, the canonical form, and the element accesses built on them. -/

namespace Sys2Proof.Machine

variable {α : Type}

@[simp] theorem Memory.read_nil (a : Nat) : Memory.read ([] : Memory α) a = none := rfl

@[simp] theorem Memory.read_write_self (m : Memory α) (a : Nat) (v : α) :
    Memory.read (Memory.write m a v) a = some v := by
  induction m with
  | nil => simp [Memory.write, Memory.read]
  | cons c m ih =>
    unfold Memory.write
    split_ifs with h1 h2
    · simp [Memory.read]
    · simp [Memory.read]
    · simp [Memory.read, Ne.symm h2, ih]

theorem Memory.read_write_of_ne (m : Memory α) (a b : Nat) (v : α) (h : b ≠ a) :
    Memory.read (Memory.write m a v) b = Memory.read m b := by
  induction m with
  | nil => simp [Memory.write, Memory.read, Ne.symm h]
  | cons c m ih =>
    unfold Memory.write
    split_ifs with h1 h2
    · simp [Memory.read, Ne.symm h]
    · subst h2; simp [Memory.read, Ne.symm h]
    · simp [Memory.read, ih]

theorem Memory.read_write (m : Memory α) (a b : Nat) (v : α) :
    Memory.read (Memory.write m a v) b = if b = a then some v else Memory.read m b := by
  split_ifs with h
  · subst h; simp
  · exact Memory.read_write_of_ne m a b v h

/-- Last write wins. -/
@[simp] theorem Memory.write_write_self (m : Memory α) (a : Nat) (v w : α) :
    Memory.write (Memory.write m a v) a w = Memory.write m a w := by
  induction m with
  | nil => simp [Memory.write]
  | cons c m ih =>
    rcases lt_trichotomy a c.1 with h | h | h
    · simp [Memory.write, h]
    · subst h; simp [Memory.write]
    · simp [Memory.write, not_lt.mpr h.le, h.ne', ih]

theorem Memory.wf_cons (c : Nat × α) (m : Memory α) :
    Memory.wf (c :: m) = true ↔ (∀ d ∈ m.head?, c.1 < d.1) ∧ Memory.wf m = true := by
  cases m <;> simp [Memory.wf]

/-- In a canonical memory every listed index after the first is above it. -/
theorem Memory.head_lt (c : Nat × α) (m : Memory α) (h : Memory.wf (c :: m) = true) : ∀ d ∈ m, c.1 < d.1 := by
  induction m generalizing c with
  | nil => simp
  | cons d m ih =>
    rw [Memory.wf_cons] at h
    have hd : c.1 < d.1 := h.1 d rfl
    intro x hx
    rcases List.mem_cons.mp hx with rfl | hx
    · exact hd
    · exact hd.trans (ih d h.2 x hx)

theorem Memory.read_eq_none_of_lt (m : Memory α) (a : Nat) (h : ∀ d ∈ m, a < d.1) : Memory.read m a = none := by
  induction m with
  | nil => rfl
  | cons c m ih =>
    have hc := h c (by simp)
    simp [Memory.read, hc.ne', ih fun d hd => h d (by simp [hd])]

theorem Memory.mem_write (m : Memory α) (a : Nat) (v : α) (c : Nat × α) (h : c ∈ Memory.write m a v) :
    c = (a, v) ∨ c ∈ m := by
  induction m with
  | nil => simpa [Memory.write] using h
  | cons d m ih =>
    unfold Memory.write at h
    split_ifs at h with h1 h2
    · simpa using h
    · rcases List.mem_cons.mp h with h | h
      · exact .inl h
      · exact .inr (by simp [h])
    · rcases List.mem_cons.mp h with h | h
      · exact .inr (by simp [h])
      · rcases ih h with h | h
        · exact .inl h
        · exact .inr (by simp [h])

/-- A write keeps the canonical form. -/
theorem Memory.wf_write (m : Memory α) (a : Nat) (v : α) (h : Memory.wf m = true) :
    Memory.wf (Memory.write m a v) = true := by
  induction m with
  | nil => rfl
  | cons c m ih =>
    have hlt := Memory.head_lt c m h
    rw [Memory.wf_cons] at h
    unfold Memory.write
    split_ifs with h1 h2
    · rw [Memory.wf_cons, Memory.wf_cons]
      exact ⟨by simpa using h1, h⟩
    · subst h2
      rw [Memory.wf_cons]
      exact ⟨h.1, h.2⟩
    · rw [Memory.wf_cons]
      refine ⟨fun d hd => ?_, ih h.2⟩
      rcases Memory.mem_write m a v d (List.mem_of_mem_head? hd) with rfl | hd
      · simp only; omega
      · exact hlt d hd

/-- A write below the capacity keeps every index below the capacity. -/
theorem Memory.within_write (cap : Nat) (m : Memory α) (a : Nat) (v : α) (ha : a < cap)
    (h : Memory.within cap m = true) : Memory.within cap (Memory.write m a v) = true := by
  simp only [Memory.within, List.all_eq_true, decide_eq_true_eq] at h ⊢
  intro c hc
  rcases Memory.mem_write m a v c hc with rfl | hc
  · exact ha
  · exact h c hc

theorem Memory.mem_of_read (m : Memory α) (a : Nat) (v : α) (h : Memory.read m a = some v) : (a, v) ∈ m := by
  induction m with
  | nil => simp at h
  | cons c m ih =>
    unfold Memory.read at h
    split_ifs at h with hc
    · simp only [Option.some.injEq] at h
      subst hc; subst h; simp
    · exact List.mem_cons_of_mem _ (ih h)

/-- An element with a value is inside the memory. -/
theorem Memory.lt_of_within (cap : Nat) (m : Memory α) (a : Nat) (v : α) (hw : Memory.within cap m = true)
    (h : Memory.read m a = some v) : a < cap := by
  simp only [Memory.within, List.all_eq_true, decide_eq_true_eq] at hw
  exact hw _ (Memory.mem_of_read m a v h)

/-- Writing the value an element has changes nothing in a canonical memory. -/
theorem Memory.write_read_self (m : Memory α) (a : Nat) (v : α) (hm : Memory.wf m = true)
    (h : Memory.read m a = some v) : Memory.write m a v = m := by
  induction m with
  | nil => simp at h
  | cons c m ih =>
    have hlt := Memory.head_lt c m hm
    rw [Memory.wf_cons] at hm
    unfold Memory.read at h
    split_ifs at h with hc
    · simp only [Option.some.injEq] at h
      subst hc; subst h
      simp [Memory.write]
    · have := hlt _ (Memory.mem_of_read m a v h)
      simp only at this
      simp [Memory.write, not_lt.mpr this.le, this.ne', ih hm.2 h]

/-- Canonical memories with the same elements are the same list. -/
theorem Memory.ext (m n : Memory α) (hm : Memory.wf m = true) (hn : Memory.wf n = true)
    (h : ∀ a, Memory.read m a = Memory.read n a) : m = n := by
  induction m generalizing n with
  | nil =>
    cases n with
    | nil => rfl
    | cons d n => simpa [Memory.read] using h d.1
  | cons c m ih =>
    cases n with
    | nil => simpa [Memory.read] using h c.1
    | cons d n =>
      have hc := Memory.head_lt c m hm
      have hd := Memory.head_lt d n hn
      have key : c.1 = d.1 := by
        rcases lt_trichotomy c.1 d.1 with hlt | heq | hlt
        · have h1 := h c.1
          rw [Memory.read_eq_none_of_lt (d :: n) c.1 (fun x hx => by
            rcases List.mem_cons.mp hx with rfl | hx
            · exact hlt
            · exact hlt.trans (hd x hx))] at h1
          simp [Memory.read] at h1
        · exact heq
        · have h1 := h d.1
          rw [Memory.read_eq_none_of_lt (c :: m) d.1 (fun x hx => by
            rcases List.mem_cons.mp hx with rfl | hx
            · exact hlt
            · exact hlt.trans (hc x hx))] at h1
          simp [Memory.read] at h1
      have hv : c.2 = d.2 := by
        have h1 := h c.1
        simpa [Memory.read, key] using h1
      rw [Memory.wf_cons] at hm hn
      have hmn : m = n := ih n hm.2 hn.2 fun a => by
        by_cases hac : c.1 = a
        · subst hac
          rw [Memory.read_eq_none_of_lt m _ hc, Memory.read_eq_none_of_lt n _ (key ▸ hd)]
        · have h1 := h a
          simpa [Memory.read, hac, key ▸ hac] using h1
      rw [hmn, Prod.ext key hv]

/-- Writes to different elements of a canonical memory commute. -/
theorem Memory.write_comm (m : Memory α) (a b : Nat) (v w : α) (hm : Memory.wf m = true) (h : a ≠ b) :
    Memory.write (Memory.write m a v) b w = Memory.write (Memory.write m b w) a v := by
  refine Memory.ext _ _ (Memory.wf_write _ _ _ (Memory.wf_write _ _ _ hm))
    (Memory.wf_write _ _ _ (Memory.wf_write _ _ _ hm)) fun c => ?_
  simp only [Memory.read_write]
  split_ifs with h1 h2 <;> simp_all

/-! ### Element accesses -/

theorem memRead_eq_next {space : Space} {m : Memory α} {a : Nat} {v : α} :
    memRead space m a = .next v ↔ Memory.read m a = some v := by
  unfold memRead
  cases Memory.read m a <;> simp

theorem memRead_of_some {space : Space} {m : Memory α} {a : Nat} {v : α} (h : Memory.read m a = some v) :
    memRead space m a = .next v := memRead_eq_next.mpr h

theorem memRead_of_none {space : Space} {m : Memory α} {a : Nat} (h : Memory.read m a = none) :
    memRead space m a = .refused (.unwritten space a) := by
  simp [memRead, h]

theorem memRead_ne_fault {space : Space} {m : Memory α} {a : Nat} {r : Fault} : memRead space m a ≠ .fault r := by
  unfold memRead
  cases Memory.read m a <;> simp

theorem outWrite_eq_next {cap : Nat} {m m' : Memory Byte} {k : Nat} {v : Byte} :
    outWrite cap m k v = .next m' ↔ k < cap ∧ m' = Memory.write m k v := by
  unfold outWrite
  split_ifs with h <;> simp [h, eq_comm]

theorem outWrite_of_lt {cap : Nat} {m : Memory Byte} {k : Nat} {v : Byte} (h : k < cap) :
    outWrite cap m k v = .next (Memory.write m k v) := by
  simp [outWrite, h]

end Sys2Proof.Machine
end

