-- ==== Sys2Proof/Laws/BitController.lean ====
section
/-! SUPPORT. What `LsbRead` and `LsbWrite` answer, and what setting bit 0 of a byte does. -/

namespace Sys2Proof.Machine

/-- The two forms of the stored byte agree: OR 1 / AND 0xFE, and bits 7:1 kept with bit 0 replaced (R81). -/
theorem setLsb_eq_withLsb : ∀ (old : Byte) (b : Bit), setLsb old b = withLsb old b := by decide

@[simp] theorem lsbOf_setLsb : ∀ (old : Byte) (b : Bit), lsbOf (setLsb old b) = b := by decide

@[simp] theorem setLsb_setLsb : ∀ (old : Byte) (a b : Bit), setLsb (setLsb old a) b = setLsb old b := by decide

@[simp] theorem setLsb_lsbOf : ∀ old : Byte, setLsb old (lsbOf old) = old := by decide

@[simp] theorem upper_setLsb : ∀ (old : Byte) (b : Bit),
    (setLsb old b).extractLsb' 1 7 = old.extractLsb' 1 7 := by decide

/-- The bounded change (R82 law 7), as numbers. -/
theorem setLsb_toNat : ∀ (old : Byte) (b : Bit),
    (setLsb old b).toNat = old.toNat - old.toNat % 2 + b.toNat := by decide

/-- A byte written with bit 0 replaced depends on the old byte only through bits 7:1. -/
theorem setLsb_congr : ∀ (x y : Byte), x.extractLsb' 1 7 = y.extractLsb' 1 7 →
    ∀ b : Bit, setLsb x b = setLsb y b := by
  intro x y h b
  rw [setLsb_eq_withLsb, setLsb_eq_withLsb, withLsb, withLsb, h]

theorem lsbOf_eq_ofNat : ∀ v : Byte, lsbOf v = BitVec.ofNat 1 (v.toNat % 2) := by decide

theorem lsbOf_toNat : ∀ v : Byte, (lsbOf v).toNat = v.toNat % 2 := by decide

theorem lsbRead_eq_next {pix : Memory Byte} {p : Nat} {b : Bit} :
    lsbRead pix p = .next b ↔ ∃ v, Memory.read pix p = some v ∧ lsbOf v = b := by
  simp [lsbRead, andThen_eq_next, memRead_eq_next]

theorem lsbRead_of_some {pix : Memory Byte} {p : Nat} {v : Byte} (h : Memory.read pix p = some v) :
    lsbRead pix p = .next (lsbOf v) := lsbRead_eq_next.mpr ⟨v, h, rfl⟩

theorem lsbRead_of_none {pix : Memory Byte} {p : Nat} (h : Memory.read pix p = none) :
    lsbRead pix p = .refused (.unwritten .pix p) := by
  simp [lsbRead, memRead_of_none h]

theorem lsbRead_ne_fault {pix : Memory Byte} {p : Nat} {r : Fault} : lsbRead pix p ≠ .fault r := by
  simp [lsbRead, andThen_eq_fault, memRead_ne_fault]

theorem lsbWrite_eq_next {pix pix' : Memory Byte} {p : Nat} {b : Bit} :
    lsbWrite pix p b = .next pix' ↔
      ∃ v, Memory.read pix p = some v ∧ pix' = Memory.write pix p (setLsb v b) := by
  simp only [lsbWrite, andThen_eq_next, memRead_eq_next, Host.Outcome.next.injEq]
  simp only [eq_comm]

theorem lsbWrite_of_some {pix : Memory Byte} {p : Nat} {v : Byte} {b : Bit} (h : Memory.read pix p = some v) :
    lsbWrite pix p b = .next (Memory.write pix p (setLsb v b)) := lsbWrite_eq_next.mpr ⟨v, h, rfl⟩

theorem lsbWrite_of_none {pix : Memory Byte} {p : Nat} {b : Bit} (h : Memory.read pix p = none) :
    lsbWrite pix p b = .refused (.unwritten .pix p) := by
  simp [lsbWrite, memRead_of_none h]

theorem lsbWrite_ne_fault {pix : Memory Byte} {p : Nat} {b : Bit} {r : Fault} : lsbWrite pix p b ≠ .fault r := by
  simp [lsbWrite, andThen_eq_fault, memRead_ne_fault]

/-- Everything an `LsbWrite` does to the elements: position `p` gets its bit, every other element stays. -/
theorem lsbWrite_read {pix pix' : Memory Byte} {p : Nat} {b : Bit} (h : lsbWrite pix p b = .next pix') (q : Nat) :
    Memory.read pix' q = if q = p then (Memory.read pix p).map (setLsb · b) else Memory.read pix q := by
  obtain ⟨v, hv, rfl⟩ := lsbWrite_eq_next.mp h
  simp [Memory.read_write, hv]

/-- An `LsbWrite` keeps the canonical form and the capacity bound. -/
theorem lsbWrite_keeps {pix pix' : Memory Byte} {p cap : Nat} {b : Bit} (h : lsbWrite pix p b = .next pix') :
    (Memory.wf pix = true → Memory.wf pix' = true) ∧
    (Memory.within cap pix = true → Memory.within cap pix' = true) := by
  obtain ⟨v, hv, rfl⟩ := lsbWrite_eq_next.mp h
  exact ⟨Memory.wf_write _ _ _, fun hw => Memory.within_write _ _ _ _ (Memory.lt_of_within _ _ _ _ hw hv) hw⟩

end Sys2Proof.Machine
end

