-- ==== Sys2Proof/Laws/Packer.lean ====
section
/-! SUPPORT. The packer: lengths and elements of bitstrings, and everything packing, unpacking and storing chunks can do. -/

namespace Sys2Proof.Machine

@[simp] theorem bits_length (w v : Nat) : (bits w v).length = w := by simp [bits]

theorem bits_getElem? (w v j : Nat) (h : j < w) :
    (bits w v)[j]? = some (BitVec.ofNat 1 (v / 2 ^ (w - 1 - j) % 2)) := by
  simp [bits, h]

@[simp] theorem textBits_nil : textBits [] = [] := rfl

@[simp] theorem textBits_cons (cp : CodePoint) (cps : List CodePoint) :
    textBits (cp :: cps) = bits 8 cp.toNat ++ textBits cps := by
  simp [textBits]

@[simp] theorem textBits_length (cps : List CodePoint) : (textBits cps).length = 8 * cps.length := by
  induction cps with
  | nil => rfl
  | cons cp cps ih => simp [ih]; omega

theorem textBits_getElem? (cps : List CodePoint) (q : Nat) :
    (textBits cps)[q]? = (cps[q / 8]?).bind fun cp => (bits 8 cp.toNat)[q % 8]? := by
  induction cps generalizing q with
  | nil => simp
  | cons cp cps ih =>
    rw [textBits_cons, List.getElem?_append]
    split_ifs with h
    · rw [bits_length] at h
      simp [Nat.div_eq_of_lt h, Nat.mod_eq_of_lt h]
    · rw [bits_length] at h ⊢
      have h8 : q / 8 = (q - 8) / 8 + 1 := by omega
      have hm : q % 8 = (q - 8) % 8 := by omega
      rw [ih, h8, hm, List.getElem?_cons_succ]

/-- The value of a bitstring with an accumulator: the serial form of R91. -/
theorem foldl_val (s : List Bit) (a : Nat) :
    s.foldl (fun acc b => 2 * acc + b.toNat) a = a * 2 ^ s.length + val s := by
  induction s generalizing a with
  | nil => simp [val]
  | cons b s ih =>
    simp only [List.foldl_cons, List.length_cons, val]
    rw [ih, ih]
    ring

@[simp] theorem val_nil : val [] = 0 := rfl

theorem val_cons (b : Bit) (s : List Bit) : val (b :: s) = b.toNat * 2 ^ s.length + val s := by
  have h := foldl_val s b.toNat
  simpa [val] using h

theorem val_concat (s : List Bit) (b : Bit) : val (s ++ [b]) = 2 * val s + b.toNat := by
  simp [val, List.foldl_append]

/-! ### PackBits -/

@[simp] theorem packBits_nil (pix : Memory Byte) (p : Nat) : packBits pix p [] = .next pix := rfl

theorem packBits_cons (pix : Memory Byte) (p : Nat) (b : Bit) (s : List Bit) :
    packBits pix p (b :: s) = andThen (lsbWrite pix p b) fun pix' => packBits pix' (p + 1) s := rfl

/-- Everything `PackBits` does to the elements when it succeeds: position `p + j` gets bit `j`, all others stay. -/
theorem packBits_read {pix pix' : Memory Byte} {p : Nat} {s : List Bit} (h : packBits pix p s = .next pix') (q : Nat) :
    Memory.read pix' q =
      if p ≤ q then (match s[q - p]? with
        | some b => (Memory.read pix q).map (setLsb · b)
        | none => Memory.read pix q)
      else Memory.read pix q := by
  induction s generalizing pix p with
  | nil => simp only [packBits_nil, Host.Outcome.next.injEq] at h; subst h; simp
  | cons b s ih =>
    rw [packBits_cons, andThen_eq_next] at h
    obtain ⟨m, hm, h⟩ := h
    rw [ih h, lsbWrite_read hm]
    rcases lt_trichotomy q p with hq | rfl | hq
    · have h1 : ¬ p + 1 ≤ q := by omega
      have h2 : ¬ p ≤ q := by omega
      simp [h1, h2, hq.ne]
    · simp
    · have h1 : p + 1 ≤ q := by omega
      have h2 : q - p = (q - (p + 1)) + 1 := by omega
      simp [h1, hq.le, hq.ne', h2]

/-- `PackBits` succeeds on loaded positions. -/
theorem packBits_of_loaded (pix : Memory Byte) (p : Nat) (s : List Bit)
    (h : ∀ j, j < s.length → ∃ v, Memory.read pix (p + j) = some v) : ∃ pix', packBits pix p s = .next pix' := by
  induction s generalizing pix p with
  | nil => exact ⟨pix, rfl⟩
  | cons b s ih =>
    obtain ⟨v, hv⟩ := h 0 (by simp)
    rw [packBits_cons, lsbWrite_of_some (by simpa using hv), andThen_next]
    refine ih _ _ fun j hj => ?_
    obtain ⟨w, hw⟩ := h (j + 1) (by simpa using hj)
    exact ⟨w, by rw [Memory.read_write_of_ne _ _ _ _ (by omega), ← hw]; congr 1; omega⟩

/-- Success of `PackBits` says its positions were loaded. -/
theorem packBits_loaded {pix pix' : Memory Byte} {p : Nat} {s : List Bit} (h : packBits pix p s = .next pix')
    (j : Nat) (hj : j < s.length) : ∃ v, Memory.read pix (p + j) = some v := by
  induction s generalizing pix p j with
  | nil => simp at hj
  | cons b s ih =>
    rw [packBits_cons, andThen_eq_next] at h
    obtain ⟨m, hm, h⟩ := h
    obtain ⟨v, hv, rfl⟩ := lsbWrite_eq_next.mp hm
    cases j with
    | zero => exact ⟨v, by simpa using hv⟩
    | succ j =>
      obtain ⟨w, hw⟩ := ih h j (by simpa using hj)
      refine ⟨w, ?_⟩
      rw [Memory.read_write_of_ne _ _ _ _ (by omega)] at hw
      rw [← hw]; congr 1; omega

/-- `PackBits` refuses the first position that was never written. -/
theorem packBits_of_unwritten (pix : Memory Byte) (p j : Nat) (s : List Bit) (hj : j < s.length)
    (h : ∀ i, i < j → ∃ v, Memory.read pix (p + i) = some v) (hn : Memory.read pix (p + j) = none) :
    packBits pix p s = .refused (.unwritten .pix (p + j)) := by
  induction s generalizing pix p j with
  | nil => simp at hj
  | cons b s ih =>
    rw [packBits_cons]
    cases j with
    | zero => rw [lsbWrite_of_none (by simpa using hn)]; rfl
    | succ j =>
      obtain ⟨v, hv⟩ := h 0 (by omega)
      have key := ih (Memory.write pix p (setLsb v b)) (p + 1) j (by simpa using hj)
        (fun i hi => by
          obtain ⟨w, hw⟩ := h (i + 1) (by omega)
          exact ⟨w, by rw [Memory.read_write_of_ne _ _ _ _ (by omega), ← hw]; congr 1; omega⟩)
        (by rw [Memory.read_write_of_ne _ _ _ _ (by omega), ← hn]; congr 1; omega)
      rw [lsbWrite_of_some (by simpa using hv), andThen_next, key, show p + 1 + j = p + (j + 1) by omega]

theorem packBits_ne_fault (pix : Memory Byte) (p : Nat) (s : List Bit) (r : Fault) : packBits pix p s ≠ .fault r := by
  induction s generalizing pix p with
  | nil => simp
  | cons b s ih => simp [packBits_cons, andThen_eq_fault, lsbWrite_ne_fault, ih]

/-- `PackBits` keeps the canonical form and the capacity bound. -/
theorem packBits_keeps {pix pix' : Memory Byte} {p cap : Nat} {s : List Bit} (h : packBits pix p s = .next pix') :
    (Memory.wf pix = true → Memory.wf pix' = true) ∧
    (Memory.within cap pix = true → Memory.within cap pix' = true) := by
  induction s generalizing pix p with
  | nil => simp only [packBits_nil, Host.Outcome.next.injEq] at h; subst h; simp
  | cons b s ih =>
    rw [packBits_cons, andThen_eq_next] at h
    obtain ⟨m, hm, h⟩ := h
    have h1 := lsbWrite_keeps (cap := cap) hm
    have h2 := ih h
    exact ⟨fun hw => h2.1 (h1.1 hw), fun hw => h2.2 (h1.2 hw)⟩

/-! ### UnpackBits, chunks and the header -/

@[simp] theorem unpackBits_zero (pix : Memory Byte) (p : Nat) : unpackBits pix p 0 = .next [] := rfl

theorem unpackBits_succ (pix : Memory Byte) (p w : Nat) :
    unpackBits pix p (w + 1) =
      andThen (lsbRead pix p) fun b => andThen (unpackBits pix (p + 1) w) fun s => .next (b :: s) := rfl

/-- `UnpackBits` answers exactly the LSBs of the positions, which are all loaded. -/
theorem unpackBits_eq_next {pix : Memory Byte} {p w : Nat} {s : List Bit} :
    unpackBits pix p w = .next s ↔
      s.length = w ∧ ∀ j, j < w → ∃ v, Memory.read pix (p + j) = some v ∧ s[j]? = some (lsbOf v) := by
  induction w generalizing p s with
  | zero => cases s <;> simp
  | succ w ih =>
    rw [unpackBits_succ]
    simp only [andThen_eq_next, lsbRead_eq_next, Host.Outcome.next.injEq]
    constructor
    · rintro ⟨b, ⟨v, hv, rfl⟩, s', hs', rfl⟩
      obtain ⟨hl, hr⟩ := ih.mp hs'
      refine ⟨by simp [hl], fun j hj => ?_⟩
      cases j with
      | zero => exact ⟨v, by simpa using hv, by simp⟩
      | succ j =>
        obtain ⟨u, hu, hj'⟩ := hr j (by omega)
        exact ⟨u, by rw [← hu]; congr 1; omega, by simpa using hj'⟩
    · rintro ⟨hl, hr⟩
      cases s with
      | nil => simp at hl
      | cons b s =>
        obtain ⟨v, hv, hb⟩ := hr 0 (by omega)
        refine ⟨b, ⟨v, by simpa using hv, by simpa using hb.symm⟩, s, ih.mpr ⟨by simpa using hl, fun j hj => ?_⟩, rfl⟩
        obtain ⟨u, hu, hj'⟩ := hr (j + 1) (by omega)
        exact ⟨u, by rw [← hu]; congr 1; omega, by simpa using hj'⟩

theorem unpackBits_of_loaded (pix : Memory Byte) (p w : Nat) (h : ∀ j, j < w → ∃ v, Memory.read pix (p + j) = some v) :
    ∃ s, unpackBits pix p w = .next s := by
  induction w generalizing p with
  | zero => exact ⟨[], rfl⟩
  | succ w ih =>
    obtain ⟨v, hv⟩ := h 0 (by omega)
    obtain ⟨s, hs⟩ := ih (p + 1) fun j hj => by
      obtain ⟨u, hu⟩ := h (j + 1) (by omega)
      exact ⟨u, by rw [← hu]; congr 1; omega⟩
    exact ⟨lsbOf v :: s, by rw [unpackBits_succ, lsbRead_of_some (by simpa using hv), andThen_next, hs]; rfl⟩

theorem unpackBits_of_unwritten (pix : Memory Byte) (p w j : Nat) (hj : j < w)
    (h : ∀ i, i < j → ∃ v, Memory.read pix (p + i) = some v) (hn : Memory.read pix (p + j) = none) :
    unpackBits pix p w = .refused (.unwritten .pix (p + j)) := by
  induction w generalizing p j with
  | zero => omega
  | succ w ih =>
    rw [unpackBits_succ]
    cases j with
    | zero => rw [lsbRead_of_none (by simpa using hn)]; rfl
    | succ j =>
      obtain ⟨v, hv⟩ := h 0 (by omega)
      have key := ih (p + 1) j (by omega)
        (fun i hi => by
          obtain ⟨u, hu⟩ := h (i + 1) (by omega)
          exact ⟨u, by rw [← hu]; congr 1; omega⟩)
        (by rw [← hn]; congr 1; omega)
      rw [lsbRead_of_some (by simpa using hv), andThen_next, key, andThen_refused, show p + 1 + j = p + (j + 1) by omega]

theorem unpackBits_ne_fault (pix : Memory Byte) (p w : Nat) (r : Fault) : unpackBits pix p w ≠ .fault r := by
  induction w generalizing p with
  | zero => simp
  | succ w ih => simp [unpackBits_succ, andThen_eq_fault, lsbRead_ne_fault, ih]

/-- `UnpackBits` depends on a memory only through the LSBs of its positions. -/
theorem unpackBits_congr {m n : Memory Byte} (p w : Nat)
    (h : ∀ j, j < w → (Memory.read n (p + j)).map lsbOf = (Memory.read m (p + j)).map lsbOf) :
    unpackBits n p w = unpackBits m p w := by
  induction w generalizing p with
  | zero => rfl
  | succ w ih =>
    have h0 : lsbRead n p = lsbRead m p := by
      have := h 0 (by omega)
      rw [Nat.add_zero] at this
      cases hm : Memory.read m p <;> cases hn : Memory.read n p <;>
        simp_all [lsbRead_of_none, lsbRead_of_some]
    rw [unpackBits_succ, unpackBits_succ, h0, ih (p + 1) fun j hj => by
      have := h (j + 1) (by omega)
      rwa [show p + (j + 1) = p + 1 + j by omega] at this]

theorem chunk_eq_next {pix : Memory Byte} {k : Nat} {c : Byte} :
    chunk pix k = .next c ↔ ∃ s, unpackBits pix (64 + 8 * k) 8 = .next s ∧ c = BitVec.ofNat 8 (val s) := by
  simp only [chunk, andThen_eq_next, chunkStart, Host.Outcome.next.injEq]
  simp only [eq_comm]

theorem readHeader_eq_next {pix : Memory Byte} {n : Nat} :
    readHeader pix = .next n ↔ ∃ s, unpackBits pix 0 64 = .next s ∧ n = val s := by
  simp only [readHeader, andThen_eq_next, Host.Outcome.next.injEq]
  simp only [eq_comm]

theorem chunk_ne_fault (pix : Memory Byte) (k : Nat) (r : Fault) : chunk pix k ≠ .fault r := by
  simp [chunk, andThen_eq_fault, unpackBits_ne_fault]

theorem readHeader_ne_fault (pix : Memory Byte) (r : Fault) : readHeader pix ≠ .fault r := by
  simp [readHeader, andThen_eq_fault, unpackBits_ne_fault]

/-! ### Storing chunks -/

@[simp] theorem storeChunks_zero (cap : Nat) (pix : Memory Byte) (k : Nat) (out : Memory Byte) :
    storeChunks cap pix 0 k out = .next out := rfl

theorem storeChunks_succ (cap : Nat) (pix : Memory Byte) (n k : Nat) (out : Memory Byte) :
    storeChunks cap pix (n + 1) k out =
      andThen (chunk pix k) fun c => andThen (outWrite cap out k c) fun out' => storeChunks cap pix n (k + 1) out' := rfl

/-- Everything storing chunks does to `OUT`: elements `k` to `k + n - 1` get their chunks, all others stay. -/
theorem storeChunks_read {cap : Nat} {pix out out' : Memory Byte} {n k : Nat}
    (h : storeChunks cap pix n k out = .next out') (q : Nat) :
    (k ≤ q → q < k + n → ∃ c, chunk pix q = .next c ∧ Memory.read out' q = some c ∧ q < cap) ∧
    (q < k ∨ k + n ≤ q → Memory.read out' q = Memory.read out q) := by
  induction n generalizing k out with
  | zero =>
    simp only [storeChunks_zero, Host.Outcome.next.injEq] at h
    subst h
    exact ⟨by omega, fun _ => rfl⟩
  | succ n ih =>
    simp only [storeChunks_succ, andThen_eq_next, outWrite_eq_next] at h
    obtain ⟨c, hc, m, ⟨hk, rfl⟩, h⟩ := h
    obtain ⟨h1, h2⟩ := ih h
    refine ⟨fun hq hn => ?_, fun hq => ?_⟩
    · rcases eq_or_lt_of_le hq with rfl | hq
      · exact ⟨c, hc, by rw [h2 (by omega)]; simp, hk⟩
      · exact h1 (by omega) (by omega)
    · rw [h2 (by omega), Memory.read_write_of_ne _ _ _ _ (by omega)]

/-- Storing chunks succeeds when the chunks can be read and the elements exist. -/
theorem storeChunks_of_chunks {cap : Nat} {pix : Memory Byte} {n k : Nat} (out : Memory Byte)
    (hc : ∀ q, k ≤ q → q < k + n → ∃ c, chunk pix q = .next c) (hcap : n = 0 ∨ k + n ≤ cap) :
    ∃ out', storeChunks cap pix n k out = .next out' := by
  induction n generalizing k out with
  | zero => exact ⟨out, rfl⟩
  | succ n ih =>
    obtain ⟨c, hc0⟩ := hc k le_rfl (by omega)
    rw [storeChunks_succ, hc0, andThen_next, outWrite_of_lt (by omega), andThen_next]
    exact ih _ (fun q h1 h2 => hc q (by omega) (by omega)) (by omega)

/-- Storing chunks refuses where the first unreadable chunk does. -/
theorem storeChunks_of_refused {cap : Nat} {pix : Memory Byte} {n k j : Nat} (out : Memory Byte) {r : Refusal}
    (hj : j < n) (hc : ∀ i, i < j → ∃ c, chunk pix (k + i) = .next c) (hr : chunk pix (k + j) = .refused r)
    (hcap : k + n ≤ cap) : storeChunks cap pix n k out = .refused r := by
  induction n generalizing k j out with
  | zero => omega
  | succ n ih =>
    rw [storeChunks_succ]
    cases j with
    | zero => rw [show k = k + 0 from rfl, hr]; rfl
    | succ j =>
      obtain ⟨c, hc0⟩ := hc 0 (by omega)
      rw [Nat.add_zero] at hc0
      rw [hc0, andThen_next, outWrite_of_lt (by omega), andThen_next]
      refine ih (j := j) _ (by omega) (fun i hi => ?_) ?_ (by omega)
      · have := hc (i + 1) (by omega)
        rwa [show k + (i + 1) = k + 1 + i by omega] at this
      · rwa [show k + (j + 1) = k + 1 + j by omega] at hr

/-- Storing chunks faults only where an element of `OUT` does not exist. -/
theorem storeChunks_ne_fault {cap : Nat} {pix : Memory Byte} {n k : Nat} (out : Memory Byte) (r : Fault)
    (hcap : n = 0 ∨ k + n ≤ cap) : storeChunks cap pix n k out ≠ .fault r := by
  induction n generalizing k out with
  | zero => simp
  | succ n ih =>
    rw [storeChunks_succ]
    simp only [ne_eq, andThen_eq_fault, chunk_ne_fault, false_or, not_exists, not_and]
    intro c _
    rw [outWrite_of_lt (by omega)]
    simpa using ih _ (by omega)

/-- Storing chunks keeps the canonical form and the capacity bound. -/
theorem storeChunks_keeps {cap : Nat} {pix out out' : Memory Byte} {n k : Nat}
    (h : storeChunks cap pix n k out = .next out') :
    (Memory.wf out = true → Memory.wf out' = true) ∧
    (Memory.within cap out = true → Memory.within cap out' = true) := by
  induction n generalizing k out with
  | zero => simp only [storeChunks_zero, Host.Outcome.next.injEq] at h; subst h; simp
  | succ n ih =>
    simp only [storeChunks_succ, andThen_eq_next, outWrite_eq_next] at h
    obtain ⟨c, _, m, ⟨hk, rfl⟩, h⟩ := h
    obtain ⟨h1, h2⟩ := ih h
    exact ⟨fun hw => h1 (Memory.wf_write _ _ _ hw), fun hw => h2 (Memory.within_write _ _ _ _ hk hw)⟩

end Sys2Proof.Machine
end

