-- ==== Sys2Proof/Laws/State.lean ====
section
/-! SUPPORT. One lemma per field per update of the state. -/

namespace Sys2Proof.Machine

/-! `raise` (R147): `STATUS` and `ERRINFO0..2` and nothing else. -/

@[simp] theorem raise_params (e : FatalError) (s : State) : (raise e s).params = s.params := rfl
@[simp] theorem raise_cmd (e : FatalError) (s : State) : (raise e s).cmd = s.cmd := rfl
@[simp] theorem raise_status (e : FatalError) (s : State) : (raise e s).status = errorStatus e.code := rfl
@[simp] theorem raise_nlen (e : FatalError) (s : State) : (raise e s).nlen = s.nlen := rfl
@[simp] theorem raise_tlen (e : FatalError) (s : State) : (raise e s).tlen = s.tlen := rfl
@[simp] theorem raise_bitidx (e : FatalError) (s : State) : (raise e s).bitidx = s.bitidx := rfl
@[simp] theorem raise_bitdat (e : FatalError) (s : State) : (raise e s).bitdat = s.bitdat := rfl
@[simp] theorem raise_binsize (e : FatalError) (s : State) : (raise e s).binsize = s.binsize := rfl
@[simp] theorem raise_outlen (e : FatalError) (s : State) : (raise e s).outlen = s.outlen := rfl
@[simp] theorem raise_errinfo0 (e : FatalError) (s : State) : (raise e s).errinfo0 = e.expected := rfl
@[simp] theorem raise_errinfo1 (e : FatalError) (s : State) : (raise e s).errinfo1 = e.actual := rfl
@[simp] theorem raise_errinfo2 (e : FatalError) (s : State) : (raise e s).errinfo2 = e.index := rfl
@[simp] theorem raise_pix (e : FatalError) (s : State) : (raise e s).pix = s.pix := rfl
@[simp] theorem raise_txt (e : FatalError) (s : State) : (raise e s).txt = s.txt := rfl
@[simp] theorem raise_out (e : FatalError) (s : State) : (raise e s).out = s.out := rfl
@[simp] theorem raise_pos (e : FatalError) (s : State) : (raise e s).pos = s.pos := rfl
@[simp] theorem raise_hdr (e : FatalError) (s : State) : (raise e s).hdr = s.hdr := rfl
@[simp] theorem raise_chr (e : FatalError) (s : State) : (raise e s).chr = s.chr := rfl
@[simp] theorem raise_checked (e : FatalError) (s : State) : (raise e s).checked = s.checked := rfl
@[simp] theorem raise_fresh (e : FatalError) (s : State) : (raise e s).fresh = s.fresh := rfl
@[simp] theorem raise_inputs (e : FatalError) (s : State) : (raise e s).inputs = s.inputs := rfl
@[simp] theorem raise_replies (e : FatalError) (s : State) : (raise e s).replies = s.replies := rfl
@[simp] theorem raise_grain (e : FatalError) (s : State) : (raise e s).grain = s.grain := rfl
@[simp] theorem raise_turns (e : FatalError) (s : State) : (raise e s).turns = s.turns := rfl

/-! `complete_ok` (R149). -/

@[simp] theorem completeOk_params (w : Bool) (s : State) : (completeOk w s).params = s.params := rfl
@[simp] theorem completeOk_cmd (w : Bool) (s : State) : (completeOk w s).cmd = s.cmd := rfl
@[simp] theorem completeOk_status (w : Bool) (s : State) : (completeOk w s).status = okStatus w := rfl
@[simp] theorem completeOk_nlen (w : Bool) (s : State) : (completeOk w s).nlen = s.nlen := rfl
@[simp] theorem completeOk_tlen (w : Bool) (s : State) : (completeOk w s).tlen = s.tlen := rfl
@[simp] theorem completeOk_bitidx (w : Bool) (s : State) : (completeOk w s).bitidx = s.bitidx := rfl
@[simp] theorem completeOk_bitdat (w : Bool) (s : State) : (completeOk w s).bitdat = s.bitdat := rfl
@[simp] theorem completeOk_binsize (w : Bool) (s : State) : (completeOk w s).binsize = s.binsize := rfl
@[simp] theorem completeOk_outlen (w : Bool) (s : State) : (completeOk w s).outlen = s.outlen := rfl
@[simp] theorem completeOk_errinfo0 (w : Bool) (s : State) : (completeOk w s).errinfo0 = 0 := rfl
@[simp] theorem completeOk_errinfo1 (w : Bool) (s : State) : (completeOk w s).errinfo1 = 0 := rfl
@[simp] theorem completeOk_errinfo2 (w : Bool) (s : State) : (completeOk w s).errinfo2 = 0 := rfl
@[simp] theorem completeOk_pix (w : Bool) (s : State) : (completeOk w s).pix = s.pix := rfl
@[simp] theorem completeOk_txt (w : Bool) (s : State) : (completeOk w s).txt = s.txt := rfl
@[simp] theorem completeOk_out (w : Bool) (s : State) : (completeOk w s).out = s.out := rfl
@[simp] theorem completeOk_pos (w : Bool) (s : State) : (completeOk w s).pos = s.pos := rfl
@[simp] theorem completeOk_hdr (w : Bool) (s : State) : (completeOk w s).hdr = s.hdr := rfl
@[simp] theorem completeOk_chr (w : Bool) (s : State) : (completeOk w s).chr = s.chr := rfl
@[simp] theorem completeOk_checked (w : Bool) (s : State) : (completeOk w s).checked = s.checked := rfl
@[simp] theorem completeOk_fresh (w : Bool) (s : State) : (completeOk w s).fresh = s.fresh := rfl
@[simp] theorem completeOk_inputs (w : Bool) (s : State) : (completeOk w s).inputs = s.inputs := rfl
@[simp] theorem completeOk_replies (w : Bool) (s : State) : (completeOk w s).replies = s.replies := rfl
@[simp] theorem completeOk_grain (w : Bool) (s : State) : (completeOk w s).grain = s.grain := rfl
@[simp] theorem completeOk_turns (w : Bool) (s : State) : (completeOk w s).turns = s.turns := rfl

/-! Acceptance of a `CMD` write (R14, R176). -/

@[simp] theorem accept_params (c : Byte) (s : State) : (accept c s).params = s.params := rfl
@[simp] theorem accept_cmd (c : Byte) (s : State) : (accept c s).cmd = c := rfl
@[simp] theorem accept_status (c : Byte) (s : State) : (accept c s).status = busyStatus := rfl
@[simp] theorem accept_nlen (c : Byte) (s : State) : (accept c s).nlen = s.nlen := rfl
@[simp] theorem accept_tlen (c : Byte) (s : State) : (accept c s).tlen = s.tlen := rfl
@[simp] theorem accept_bitidx (c : Byte) (s : State) : (accept c s).bitidx = s.bitidx := rfl
@[simp] theorem accept_bitdat (c : Byte) (s : State) : (accept c s).bitdat = s.bitdat := rfl
@[simp] theorem accept_binsize (c : Byte) (s : State) : (accept c s).binsize = s.binsize := rfl
@[simp] theorem accept_outlen (c : Byte) (s : State) : (accept c s).outlen = s.outlen := rfl
@[simp] theorem accept_errinfo0 (c : Byte) (s : State) : (accept c s).errinfo0 = s.errinfo0 := rfl
@[simp] theorem accept_errinfo1 (c : Byte) (s : State) : (accept c s).errinfo1 = s.errinfo1 := rfl
@[simp] theorem accept_errinfo2 (c : Byte) (s : State) : (accept c s).errinfo2 = s.errinfo2 := rfl
@[simp] theorem accept_pix (c : Byte) (s : State) : (accept c s).pix = s.pix := rfl
@[simp] theorem accept_txt (c : Byte) (s : State) : (accept c s).txt = s.txt := rfl
@[simp] theorem accept_out (c : Byte) (s : State) : (accept c s).out = s.out := rfl
@[simp] theorem accept_pos (c : Byte) (s : State) : (accept c s).pos = s.pos := rfl
@[simp] theorem accept_hdr (c : Byte) (s : State) : (accept c s).hdr = s.hdr := rfl
@[simp] theorem accept_chr (c : Byte) (s : State) : (accept c s).chr = s.chr := rfl
@[simp] theorem accept_checked (c : Byte) (s : State) : (accept c s).checked = false := rfl
@[simp] theorem accept_fresh (c : Byte) (s : State) : (accept c s).fresh = s.fresh := rfl
@[simp] theorem accept_inputs (c : Byte) (s : State) : (accept c s).inputs = s.inputs := rfl
@[simp] theorem accept_replies (c : Byte) (s : State) : (accept c s).replies = s.replies := rfl
@[simp] theorem accept_grain (c : Byte) (s : State) : (accept c s).grain = s.grain := rfl
@[simp] theorem accept_turns (c : Byte) (s : State) : (accept c s).turns = s.turns := rfl

/-! The hidden values become free. -/

@[simp] theorem freeHidden_params (s : State) : (freeHidden s).params = s.params := rfl
@[simp] theorem freeHidden_cmd (s : State) : (freeHidden s).cmd = s.cmd := rfl
@[simp] theorem freeHidden_status (s : State) : (freeHidden s).status = s.status := rfl
@[simp] theorem freeHidden_nlen (s : State) : (freeHidden s).nlen = s.nlen := rfl
@[simp] theorem freeHidden_tlen (s : State) : (freeHidden s).tlen = s.tlen := rfl
@[simp] theorem freeHidden_bitidx (s : State) : (freeHidden s).bitidx = s.bitidx := rfl
@[simp] theorem freeHidden_bitdat (s : State) : (freeHidden s).bitdat = s.bitdat := rfl
@[simp] theorem freeHidden_binsize (s : State) : (freeHidden s).binsize = s.binsize := rfl
@[simp] theorem freeHidden_outlen (s : State) : (freeHidden s).outlen = s.outlen := rfl
@[simp] theorem freeHidden_errinfo0 (s : State) : (freeHidden s).errinfo0 = s.errinfo0 := rfl
@[simp] theorem freeHidden_errinfo1 (s : State) : (freeHidden s).errinfo1 = s.errinfo1 := rfl
@[simp] theorem freeHidden_errinfo2 (s : State) : (freeHidden s).errinfo2 = s.errinfo2 := rfl
@[simp] theorem freeHidden_pix (s : State) : (freeHidden s).pix = s.pix := rfl
@[simp] theorem freeHidden_txt (s : State) : (freeHidden s).txt = s.txt := rfl
@[simp] theorem freeHidden_out (s : State) : (freeHidden s).out = s.out := rfl
@[simp] theorem freeHidden_pos (s : State) : (freeHidden s).pos = Config.freePos s.fresh := rfl
@[simp] theorem freeHidden_hdr (s : State) : (freeHidden s).hdr = Config.freeHdr s.fresh := rfl
@[simp] theorem freeHidden_chr (s : State) : (freeHidden s).chr = Config.freeChr s.fresh := rfl
@[simp] theorem freeHidden_checked (s : State) : (freeHidden s).checked = s.checked := rfl
@[simp] theorem freeHidden_fresh (s : State) : (freeHidden s).fresh = s.fresh + 1 := rfl
@[simp] theorem freeHidden_inputs (s : State) : (freeHidden s).inputs = s.inputs := rfl
@[simp] theorem freeHidden_replies (s : State) : (freeHidden s).replies = s.replies := rfl
@[simp] theorem freeHidden_grain (s : State) : (freeHidden s).grain = s.grain := rfl
@[simp] theorem freeHidden_turns (s : State) : (freeHidden s).turns = s.turns := rfl

/-! A value returned to the host. -/

@[simp] theorem reply_params (r : Reply) (s : State) : (reply r s).params = s.params := rfl
@[simp] theorem reply_cmd (r : Reply) (s : State) : (reply r s).cmd = s.cmd := rfl
@[simp] theorem reply_status (r : Reply) (s : State) : (reply r s).status = s.status := rfl
@[simp] theorem reply_nlen (r : Reply) (s : State) : (reply r s).nlen = s.nlen := rfl
@[simp] theorem reply_tlen (r : Reply) (s : State) : (reply r s).tlen = s.tlen := rfl
@[simp] theorem reply_bitidx (r : Reply) (s : State) : (reply r s).bitidx = s.bitidx := rfl
@[simp] theorem reply_bitdat (r : Reply) (s : State) : (reply r s).bitdat = s.bitdat := rfl
@[simp] theorem reply_binsize (r : Reply) (s : State) : (reply r s).binsize = s.binsize := rfl
@[simp] theorem reply_outlen (r : Reply) (s : State) : (reply r s).outlen = s.outlen := rfl
@[simp] theorem reply_errinfo0 (r : Reply) (s : State) : (reply r s).errinfo0 = s.errinfo0 := rfl
@[simp] theorem reply_errinfo1 (r : Reply) (s : State) : (reply r s).errinfo1 = s.errinfo1 := rfl
@[simp] theorem reply_errinfo2 (r : Reply) (s : State) : (reply r s).errinfo2 = s.errinfo2 := rfl
@[simp] theorem reply_pix (r : Reply) (s : State) : (reply r s).pix = s.pix := rfl
@[simp] theorem reply_txt (r : Reply) (s : State) : (reply r s).txt = s.txt := rfl
@[simp] theorem reply_out (r : Reply) (s : State) : (reply r s).out = s.out := rfl
@[simp] theorem reply_pos (r : Reply) (s : State) : (reply r s).pos = s.pos := rfl
@[simp] theorem reply_hdr (r : Reply) (s : State) : (reply r s).hdr = s.hdr := rfl
@[simp] theorem reply_chr (r : Reply) (s : State) : (reply r s).chr = s.chr := rfl
@[simp] theorem reply_checked (r : Reply) (s : State) : (reply r s).checked = s.checked := rfl
@[simp] theorem reply_fresh (r : Reply) (s : State) : (reply r s).fresh = s.fresh := rfl
@[simp] theorem reply_inputs (r : Reply) (s : State) : (reply r s).inputs = s.inputs := rfl
@[simp] theorem reply_replies (r : Reply) (s : State) : (reply r s).replies = s.replies ++ [r] := rfl
@[simp] theorem reply_grain (r : Reply) (s : State) : (reply r s).grain = s.grain := rfl
@[simp] theorem reply_turns (r : Reply) (s : State) : (reply r s).turns = s.turns := rfl

/-! What can be observed. -/

@[simp] theorem visible_params (s : State) : (s.visible).params = s.params := rfl
@[simp] theorem visible_cmd (s : State) : (s.visible).cmd = s.cmd := rfl
@[simp] theorem visible_status (s : State) : (s.visible).status = s.status := rfl
@[simp] theorem visible_nlen (s : State) : (s.visible).nlen = s.nlen := rfl
@[simp] theorem visible_tlen (s : State) : (s.visible).tlen = s.tlen := rfl
@[simp] theorem visible_bitidx (s : State) : (s.visible).bitidx = s.bitidx := rfl
@[simp] theorem visible_bitdat (s : State) : (s.visible).bitdat = s.bitdat := rfl
@[simp] theorem visible_binsize (s : State) : (s.visible).binsize = s.binsize := rfl
@[simp] theorem visible_outlen (s : State) : (s.visible).outlen = s.outlen := rfl
@[simp] theorem visible_errinfo0 (s : State) : (s.visible).errinfo0 = s.errinfo0 := rfl
@[simp] theorem visible_errinfo1 (s : State) : (s.visible).errinfo1 = s.errinfo1 := rfl
@[simp] theorem visible_errinfo2 (s : State) : (s.visible).errinfo2 = s.errinfo2 := rfl
@[simp] theorem visible_pix (s : State) : (s.visible).pix = s.pix := rfl
@[simp] theorem visible_txt (s : State) : (s.visible).txt = s.txt := rfl
@[simp] theorem visible_out (s : State) : (s.visible).out = s.out := rfl
@[simp] theorem visible_pos (s : State) : (s.visible).pos = 0 := rfl
@[simp] theorem visible_hdr (s : State) : (s.visible).hdr = 0 := rfl
@[simp] theorem visible_chr (s : State) : (s.visible).chr = 0 := rfl
@[simp] theorem visible_checked (s : State) : (s.visible).checked = false := rfl
@[simp] theorem visible_fresh (s : State) : (s.visible).fresh = 0 := rfl
@[simp] theorem visible_inputs (s : State) : (s.visible).inputs = s.inputs := rfl
@[simp] theorem visible_replies (s : State) : (s.visible).replies = s.replies := rfl
@[simp] theorem visible_grain (s : State) : (s.visible).grain = s.grain := rfl
@[simp] theorem visible_turns (s : State) : (s.visible).turns = s.turns := rfl

/-! The reset event (R171, R172). -/

@[simp] theorem applyReset_params (s : State) : (applyReset s).params = s.params := rfl
@[simp] theorem applyReset_cmd (s : State) : (applyReset s).cmd = 0 := rfl
@[simp] theorem applyReset_status (s : State) : (applyReset s).status = 0 := rfl
@[simp] theorem applyReset_nlen (s : State) : (applyReset s).nlen = 0 := rfl
@[simp] theorem applyReset_tlen (s : State) : (applyReset s).tlen = 0 := rfl
@[simp] theorem applyReset_bitidx (s : State) : (applyReset s).bitidx = 0 := rfl
@[simp] theorem applyReset_bitdat (s : State) : (applyReset s).bitdat = 0 := rfl
@[simp] theorem applyReset_binsize (s : State) : (applyReset s).binsize = 0 := rfl
@[simp] theorem applyReset_outlen (s : State) : (applyReset s).outlen = 0 := rfl
@[simp] theorem applyReset_errinfo0 (s : State) : (applyReset s).errinfo0 = 0 := rfl
@[simp] theorem applyReset_errinfo1 (s : State) : (applyReset s).errinfo1 = 0 := rfl
@[simp] theorem applyReset_errinfo2 (s : State) : (applyReset s).errinfo2 = 0 := rfl
@[simp] theorem applyReset_pix (s : State) : (applyReset s).pix = [] := rfl
@[simp] theorem applyReset_txt (s : State) : (applyReset s).txt = [] := rfl
@[simp] theorem applyReset_out (s : State) : (applyReset s).out = [] := rfl
@[simp] theorem applyReset_pos (s : State) : (applyReset s).pos = Config.freePos s.fresh := rfl
@[simp] theorem applyReset_hdr (s : State) : (applyReset s).hdr = Config.freeHdr s.fresh := rfl
@[simp] theorem applyReset_chr (s : State) : (applyReset s).chr = Config.freeChr s.fresh := rfl
@[simp] theorem applyReset_checked (s : State) : (applyReset s).checked = false := rfl
@[simp] theorem applyReset_fresh (s : State) : (applyReset s).fresh = s.fresh + 1 := rfl
@[simp] theorem applyReset_inputs (s : State) : (applyReset s).inputs = s.inputs := rfl
@[simp] theorem applyReset_replies (s : State) : (applyReset s).replies = s.replies := rfl
@[simp] theorem applyReset_grain (s : State) : (applyReset s).grain = s.grain := rfl
@[simp] theorem applyReset_turns (s : State) : (applyReset s).turns = s.turns := rfl

/-! The `STATUS` values (R140, R149) and what their flags read. -/

@[simp] theorem errorStatus_bufferTooSmall : errorStatus .bufferTooSmall = 0x16 := by decide
@[simp] theorem errorStatus_outOfRangeChar : errorStatus .outOfRangeChar = 0x26 := by decide
@[simp] theorem errorStatus_indexOutOfRange : errorStatus .indexOutOfRange = 0x36 := by decide
@[simp] theorem errorStatus_illegalCommand : errorStatus .illegalCommand = 0x46 := by decide
@[simp] theorem errorStatus_lengthExceedsCapacity : errorStatus .lengthExceedsCapacity = 0x56 := by decide

@[simp] theorem raise_busy (e : FatalError) (s : State) : (raise e s).busy = false := by
  rcases e with ⟨c, _, _, _⟩; cases c <;> simp [State.busy]
@[simp] theorem completeOk_busy (w : Bool) (s : State) : (completeOk w s).busy = false := by
  cases w <;> simp [State.busy, okStatus]
@[simp] theorem raise_done (e : FatalError) (s : State) : (raise e s).done = true := by
  rcases e with ⟨c, _, _, _⟩; cases c <;> simp [State.done]
@[simp] theorem completeOk_done (w : Bool) (s : State) : (completeOk w s).done = true := by
  cases w <;> simp [State.done, okStatus]
@[simp] theorem raise_err (e : FatalError) (s : State) : (raise e s).err = true := by
  rcases e with ⟨c, _, _, _⟩; cases c <;> simp [State.err]
@[simp] theorem completeOk_err (w : Bool) (s : State) : (completeOk w s).err = false := by
  cases w <;> simp [State.err, okStatus]
@[simp] theorem raise_warnTrunc (e : FatalError) (s : State) : (raise e s).warnTrunc = false := by
  rcases e with ⟨c, _, _, _⟩; cases c <;> simp [State.warnTrunc]
@[simp] theorem completeOk_warnTrunc (w : Bool) (s : State) : (completeOk w s).warnTrunc = w := by
  cases w <;> simp [State.warnTrunc, okStatus]
@[simp] theorem accept_busy (c : Byte) (s : State) : (accept c s).busy = true := by simp [State.busy, busyStatus]

end Sys2Proof.Machine
end

