-- ==== Sys2Proof/Laws/Commands.lean ====
section
/-! SUPPORT. The checks of the commands, and one inversion lemma per command: everything it can answer. -/

namespace Sys2Proof.Machine

/-! ### The character scan -/

@[simp] theorem scanText_zero (m : Memory CodePoint) (k : Nat) : scanText m 0 k = .next (.ok []) := rfl

theorem scanText_succ (m : Memory CodePoint) (n k : Nat) :
    scanText m (n + 1) k = andThen (memRead .txt m k) fun cp =>
      if 255 < cp.toNat then .next (.error (outOfRangeChar cp k))
      else andThen (scanText m n (k + 1)) fun
        | .error e => .next (.error e)
        | .ok cps => .next (.ok (cp :: cps)) := rfl

/-- Reading a good character first. -/
theorem scanText_succ_of_good {m : Memory CodePoint} {n k : Nat} {cp : CodePoint} (h : Memory.read m k = some cp)
    (hc : cp.toNat ≤ 255) :
    scanText m (n + 1) k = andThen (scanText m n (k + 1)) fun
      | .error e => .next (.error e)
      | .ok cps => .next (.ok (cp :: cps)) := by
  rw [scanText_succ, memRead_of_some h, andThen_next, if_neg (by omega)]

/-- The scan succeeds with exactly the code points of the text, all at most 255. -/
theorem scanText_eq_ok {m : Memory CodePoint} {n k : Nat} {cps : List CodePoint} :
    scanText m n k = .next (.ok cps) ↔
      cps.length = n ∧ ∀ j, j < n → ∃ cp, Memory.read m (k + j) = some cp ∧ cp.toNat ≤ 255 ∧ cps[j]? = some cp := by
  induction n generalizing k cps with
  | zero => cases cps <;> simp
  | succ n ih =>
    constructor
    · intro h
      rw [scanText_succ, andThen_eq_next] at h
      obtain ⟨cp, hcp, h⟩ := h
      rw [memRead_eq_next] at hcp
      split_ifs at h with hc
      · simp at h
      · rw [andThen_eq_next] at h
        obtain ⟨r, hr, h⟩ := h
        cases r with
        | error e => simp at h
        | ok cs =>
          simp only [Host.Outcome.next.injEq, Except.ok.injEq] at h
          subst h
          obtain ⟨hl, hj⟩ := ih.mp hr
          refine ⟨by simp [hl], fun j hjn => ?_⟩
          cases j with
          | zero => exact ⟨cp, by simpa using hcp, by omega, by simp⟩
          | succ j =>
            obtain ⟨c, h1, h2, h3⟩ := hj j (by omega)
            exact ⟨c, by rw [← h1]; congr 1; omega, h2, by simpa using h3⟩
    · rintro ⟨hl, hj⟩
      cases cps with
      | nil => simp at hl
      | cons cp cps =>
        obtain ⟨c, h1, h2, h3⟩ := hj 0 (by omega)
        simp only [List.getElem?_cons_zero, Option.some.injEq] at h3
        subst h3
        rw [scanText_succ_of_good (by simpa using h1) h2, ih.mpr ⟨by simpa using hl, fun j hjn => ?_⟩, andThen_next]
        obtain ⟨d, h1, h2, h3⟩ := hj (j + 1) (by omega)
        exact ⟨d, by rw [← h1]; congr 1; omega, h2, by simpa using h3⟩

/-- The scan raises at the lowest code point above 255. -/
theorem scanText_of_offender {m : Memory CodePoint} {n k j : Nat} {cp : CodePoint} (hj : j < n)
    (h : ∀ i, i < j → ∃ c, Memory.read m (k + i) = some c ∧ c.toNat ≤ 255)
    (hr : Memory.read m (k + j) = some cp) (hc : 255 < cp.toNat) :
    scanText m n k = .next (.error (outOfRangeChar cp (k + j))) := by
  induction n generalizing k j with
  | zero => omega
  | succ n ih =>
    cases j with
    | zero => rw [scanText_succ, memRead_of_some (by simpa using hr), andThen_next, if_pos hc]; simp
    | succ j =>
      obtain ⟨c, h1, h2⟩ := h 0 (by omega)
      have key := ih (k := k + 1) (j := j) (by omega)
        (fun i hi => by
          obtain ⟨c, h1, h2⟩ := h (i + 1) (by omega)
          exact ⟨c, by rw [← h1]; congr 1; omega, h2⟩)
        (by rw [← hr]; congr 1; omega)
      rw [scanText_succ_of_good (by simpa using h1) h2, key, andThen_next, show k + 1 + j = k + (j + 1) by omega]

/-- The scan refuses at the lowest element never written. -/
theorem scanText_of_unwritten {m : Memory CodePoint} {n k j : Nat} (hj : j < n)
    (h : ∀ i, i < j → ∃ c, Memory.read m (k + i) = some c ∧ c.toNat ≤ 255)
    (hr : Memory.read m (k + j) = none) : scanText m n k = .refused (.unwritten .txt (k + j)) := by
  induction n generalizing k j with
  | zero => omega
  | succ n ih =>
    cases j with
    | zero => rw [scanText_succ, memRead_of_none (by simpa using hr)]; rfl
    | succ j =>
      obtain ⟨c, h1, h2⟩ := h 0 (by omega)
      have key := ih (k := k + 1) (j := j) (by omega)
        (fun i hi => by
          obtain ⟨c, h1, h2⟩ := h (i + 1) (by omega)
          exact ⟨c, by rw [← h1]; congr 1; omega, h2⟩)
        (by rw [← hr]; congr 1; omega)
      rw [scanText_succ_of_good (by simpa using h1) h2, key, andThen_refused, show k + 1 + j = k + (j + 1) by omega]

/-- Whatever the scan raises is `OUT_OF_RANGE_CHAR` of an element of the text. -/
theorem scanText_eq_error {m : Memory CodePoint} {n k : Nat} {e : FatalError} (h : scanText m n k = .next (.error e)) :
    ∃ cp j, e = outOfRangeChar cp j := by
  induction n generalizing k with
  | zero => simp at h
  | succ n ih =>
    rw [scanText_succ, andThen_eq_next] at h
    obtain ⟨cp, _, h⟩ := h
    split_ifs at h with hc
    · simp only [Host.Outcome.next.injEq, Except.error.injEq] at h
      exact ⟨cp, k, h.symm⟩
    · rw [andThen_eq_next] at h
      obtain ⟨r, hr, h⟩ := h
      cases r with
      | error e' =>
        simp only [Host.Outcome.next.injEq, Except.error.injEq] at h
        subst h; exact ih hr
      | ok cs => simp at h

theorem scanText_ne_fault (m : Memory CodePoint) (n k : Nat) (r : Fault) : scanText m n k ≠ .fault r := by
  induction n generalizing k with
  | zero => simp
  | succ n ih =>
    rw [scanText_succ]
    simp only [ne_eq, andThen_eq_fault, memRead_ne_fault, false_or, not_exists, not_and]
    intro cp _
    split_ifs with hc
    · simp
    · simp only [andThen_eq_fault, ih, false_or, not_exists, not_and]
      rintro (e | cs) _ <;> simp

/-- The scan depends only on the elements of the text. -/
theorem scanText_congr {m m' : Memory CodePoint} (n k : Nat)
    (h : ∀ j, j < n → Memory.read m' (k + j) = Memory.read m (k + j)) : scanText m' n k = scanText m n k := by
  induction n generalizing k with
  | zero => rfl
  | succ n ih =>
    have h0 : Memory.read m' k = Memory.read m k := by simpa using h 0 (by omega)
    rw [scanText_succ, scanText_succ, ih (k + 1) fun j hj => by
      have := h (j + 1) (by omega)
      rwa [show k + (j + 1) = k + 1 + j by omega] at this]
    unfold memRead
    rw [h0]

/-! ### The checks -/

theorem encodeChecks_eq_scan {s : State} (h1 : s.nlen.toNat ≤ s.params.pixCap) (h2 : s.tlen.toNat ≤ s.params.txtCap)
    (h3 : 64 ≤ s.nlen.toNat) : encodeChecks s = scanText s.txt s.tlen.toNat 0 := by
  simp [encodeChecks, checkBufferFits, checkTextFits, checkHeaderFits, firstError, bufLen, textLen,
    not_lt.mpr h1, not_lt.mpr h2, not_lt.mpr h3]

theorem encodeChecks_eq_ok {s : State} {cps : List CodePoint} :
    encodeChecks s = .next (.ok cps) ↔
      s.nlen.toNat ≤ s.params.pixCap ∧ s.tlen.toNat ≤ s.params.txtCap ∧ 64 ≤ s.nlen.toNat ∧
      scanText s.txt s.tlen.toNat 0 = .next (.ok cps) := by
  constructor
  · intro h
    by_cases h1 : s.params.pixCap < s.nlen.toNat
    · simp [encodeChecks, checkBufferFits, firstError, bufLen, h1] at h
    by_cases h2 : s.params.txtCap < s.tlen.toNat
    · simp [encodeChecks, checkBufferFits, checkTextFits, firstError, bufLen, textLen, h1, h2] at h
    by_cases h3 : s.nlen.toNat < 64
    · simp [encodeChecks, checkBufferFits, checkTextFits, checkHeaderFits, firstError, bufLen, textLen, h1, h2, h3] at h
    rw [encodeChecks_eq_scan (by omega) (by omega) (by omega)] at h
    exact ⟨by omega, by omega, by omega, h⟩
  · rintro ⟨h1, h2, h3, h⟩
    rw [encodeChecks_eq_scan h1 h2 h3, h]

theorem encodeChecks_of_long_buffer {s : State} (h : s.params.pixCap < s.nlen.toNat) :
    encodeChecks s = .next (.error (nlenExceedsCapacity s.params.pixCap s.nlen)) := by
  simp [encodeChecks, checkBufferFits, firstError, bufLen, h]

theorem encodeChecks_of_long_text {s : State} (h1 : s.nlen.toNat ≤ s.params.pixCap)
    (h : s.params.txtCap < s.tlen.toNat) :
    encodeChecks s = .next (.error (tlenExceedsCapacity s.params.txtCap s.tlen)) := by
  simp [encodeChecks, checkBufferFits, checkTextFits, firstError, bufLen, textLen, not_lt.mpr h1, h]

theorem encodeChecks_of_short_buffer {s : State} (h1 : s.nlen.toNat ≤ s.params.pixCap)
    (h2 : s.tlen.toNat ≤ s.params.txtCap) (h : s.nlen.toNat < 64) :
    encodeChecks s = .next (.error (bufferTooSmall s.nlen)) := by
  simp [encodeChecks, checkBufferFits, checkTextFits, checkHeaderFits, firstError, bufLen, textLen,
    not_lt.mpr h1, not_lt.mpr h2, h]

/-- An error of ENCODE's checks is one of the document's two or of the capacity's. -/
theorem encodeChecks_error_code {s : State} {e : FatalError} (h : encodeChecks s = .next (.error e)) :
    e.code = .lengthExceedsCapacity ∨ e.code = .bufferTooSmall ∨ e.code = .outOfRangeChar := by
  by_cases h1 : s.params.pixCap < s.nlen.toNat
  · rw [encodeChecks_of_long_buffer h1] at h
    simp only [Host.Outcome.next.injEq, Except.error.injEq] at h; subst h; exact .inl rfl
  by_cases h2 : s.params.txtCap < s.tlen.toNat
  · rw [encodeChecks_of_long_text (by omega) h2] at h
    simp only [Host.Outcome.next.injEq, Except.error.injEq] at h; subst h; exact .inl rfl
  by_cases h3 : s.nlen.toNat < 64
  · rw [encodeChecks_of_short_buffer (by omega) (by omega) h3] at h
    simp only [Host.Outcome.next.injEq, Except.error.injEq] at h; subst h; exact .inr (.inl rfl)
  rw [encodeChecks_eq_scan (by omega) (by omega) (by omega)] at h
  obtain ⟨cp, j, rfl⟩ := scanText_eq_error h
  exact .inr (.inr rfl)

theorem encodeChecks_ne_fault (s : State) (r : Fault) : encodeChecks s ≠ .fault r := by
  unfold encodeChecks
  split
  · simp
  · exact scanText_ne_fault _ _ _ _

theorem decodeChecks_eq_ok {s : State} :
    decodeChecks s = .next (.ok ()) ↔ s.nlen.toNat ≤ s.params.pixCap ∧ 64 ≤ s.nlen.toNat := by
  by_cases h1 : s.params.pixCap < s.nlen.toNat
  · simp [decodeChecks, checkBufferFits, firstError, bufLen, h1]
  by_cases h3 : s.nlen.toNat < 64
  · simp [decodeChecks, checkBufferFits, checkHeaderFits, firstError, bufLen, h1, h3]
  simp [decodeChecks, checkBufferFits, checkHeaderFits, firstError, bufLen, h1, h3, not_lt.mp h1, not_lt.mp h3]

theorem decodeChecks_of_long_buffer {s : State} (h : s.params.pixCap < s.nlen.toNat) :
    decodeChecks s = .next (.error (nlenExceedsCapacity s.params.pixCap s.nlen)) := by
  simp [decodeChecks, checkBufferFits, firstError, bufLen, h]

theorem decodeChecks_of_short_buffer {s : State} (h1 : s.nlen.toNat ≤ s.params.pixCap) (h : s.nlen.toNat < 64) :
    decodeChecks s = .next (.error (bufferTooSmall s.nlen)) := by
  simp [decodeChecks, checkBufferFits, checkHeaderFits, firstError, bufLen, not_lt.mpr h1, h]

theorem decodeChecks_error_code {s : State} {e : FatalError} (h : decodeChecks s = .next (.error e)) :
    e.code = .lengthExceedsCapacity ∨ e.code = .bufferTooSmall := by
  by_cases h1 : s.params.pixCap < s.nlen.toNat
  · rw [decodeChecks_of_long_buffer h1] at h
    simp only [Host.Outcome.next.injEq, Except.error.injEq] at h; subst h; exact .inl rfl
  by_cases h3 : s.nlen.toNat < 64
  · rw [decodeChecks_of_short_buffer (by omega) h3] at h
    simp only [Host.Outcome.next.injEq, Except.error.injEq] at h; subst h; exact .inr rfl
  rw [decodeChecks_eq_ok.mpr ⟨by omega, by omega⟩] at h
  simp at h

theorem bitChecks_eq_ok {s : State} :
    bitChecks s = .next (.ok ()) ↔ s.nlen.toNat ≤ s.params.pixCap ∧ s.bitidx.toNat < s.nlen.toNat := by
  by_cases h1 : s.params.pixCap < s.nlen.toNat
  · simp [bitChecks, checkBufferFits, firstError, bufLen, h1]
  by_cases h3 : s.nlen.toNat ≤ s.bitidx.toNat
  · simp [bitChecks, checkBufferFits, checkBitIndex, firstError, bufLen, h1, h3, not_lt.mpr h3]
  simp [bitChecks, checkBufferFits, checkBitIndex, firstError, bufLen, h1, h3, not_lt.mp h1, not_le.mp h3]

theorem bitChecks_of_long_buffer {s : State} (h : s.params.pixCap < s.nlen.toNat) :
    bitChecks s = .next (.error (nlenExceedsCapacity s.params.pixCap s.nlen)) := by
  simp [bitChecks, checkBufferFits, firstError, bufLen, h]

theorem bitChecks_of_bad_index {s : State} (h1 : s.nlen.toNat ≤ s.params.pixCap) (h : s.nlen.toNat ≤ s.bitidx.toNat) :
    bitChecks s = .next (.error (indexOutOfRange s.nlen s.bitidx)) := by
  simp [bitChecks, checkBufferFits, checkBitIndex, firstError, bufLen, not_lt.mpr h1, h]

theorem bitChecks_error_code {s : State} {e : FatalError} (h : bitChecks s = .next (.error e)) :
    e.code = .lengthExceedsCapacity ∨ e.code = .indexOutOfRange := by
  by_cases h1 : s.params.pixCap < s.nlen.toNat
  · rw [bitChecks_of_long_buffer h1] at h
    simp only [Host.Outcome.next.injEq, Except.error.injEq] at h; subst h; exact .inl rfl
  by_cases h3 : s.nlen.toNat ≤ s.bitidx.toNat
  · rw [bitChecks_of_bad_index (by omega) h3] at h
    simp only [Host.Outcome.next.injEq, Except.error.injEq] at h; subst h; exact .inr rfl
  rw [bitChecks_eq_ok.mpr ⟨by omega, by omega⟩] at h
  simp at h

/-! ### Everything a command can answer -/

theorem exec_nop (s : State) : exec .nop s = .next (completeOk false s) := rfl

theorem exec_rdbit_eq_next {s t : State} :
    exec .rdbit s = .next t ↔
      (∃ e, bitChecks s = .next (.error e) ∧ t = raise e s) ∨
      (s.nlen.toNat ≤ s.params.pixCap ∧ s.bitidx.toNat < s.nlen.toNat ∧
        ∃ v, Memory.read s.pix s.bitidx.toNat = some v ∧ t = completeOk false { s with bitdat := lsbOf v }) := by
  show execRdbit s = .next t ↔ _
  simp only [execRdbit, guarded_eq_next, andThen_eq_next, lsbRead_eq_next, Host.Outcome.next.injEq]
  constructor
  · rintro (h | ⟨_, h, b, ⟨v, hv, rfl⟩, rfl⟩)
    · exact .inl h
    · exact .inr ⟨(bitChecks_eq_ok.mp h).1, (bitChecks_eq_ok.mp h).2, v, hv, rfl⟩
  · rintro (h | ⟨h1, h2, v, hv, rfl⟩)
    · exact .inl h
    · exact .inr ⟨(), bitChecks_eq_ok.mpr ⟨h1, h2⟩, lsbOf v, ⟨v, hv, rfl⟩, rfl⟩

theorem exec_wrbit_eq_next {s t : State} :
    exec .wrbit s = .next t ↔
      (∃ e, bitChecks s = .next (.error e) ∧ t = raise e s) ∨
      (s.nlen.toNat ≤ s.params.pixCap ∧ s.bitidx.toNat < s.nlen.toNat ∧
        ∃ pix', lsbWrite s.pix s.bitidx.toNat s.bitdat = .next pix' ∧ t = completeOk false { s with pix := pix' }) := by
  show execWrbit s = .next t ↔ _
  simp only [execWrbit, guarded_eq_next, andThen_eq_next, Host.Outcome.next.injEq]
  constructor
  · rintro (h | ⟨_, h, m, hm, rfl⟩)
    · exact .inl h
    · exact .inr ⟨(bitChecks_eq_ok.mp h).1, (bitChecks_eq_ok.mp h).2, m, hm, rfl⟩
  · rintro (h | ⟨h1, h2, m, hm, rfl⟩)
    · exact .inl h
    · exact .inr ⟨(), bitChecks_eq_ok.mpr ⟨h1, h2⟩, m, hm, rfl⟩

theorem exec_encode_eq_next {s t : State} :
    exec .encode s = .next t ↔
      (∃ e, encodeChecks s = .next (.error e) ∧ t = raise e s) ∨
      (∃ cps pix', encodeChecks s = .next (.ok cps) ∧ embed s.pix (encodeSize s) cps = .next pix' ∧
        t = completeOk (truncates s)
          (freeHidden { s with pix := pix', binsize := BitVec.ofNat 64 (encodeSize s) })) := by
  show execEncode s = .next t ↔ _
  simp only [execEncode, guarded_eq_next, andThen_eq_next, Host.Outcome.next.injEq]
  constructor
  · rintro (h | ⟨cps, h, m, hm, rfl⟩)
    · exact .inl h
    · exact .inr ⟨cps, m, h, hm, rfl⟩
  · rintro (h | ⟨cps, m, h, hm, rfl⟩)
    · exact .inl h
    · exact .inr ⟨cps, h, m, hm, rfl⟩

theorem exec_decode_eq_next {s t : State} :
    exec .decode s = .next t ↔
      (∃ e, decodeChecks s = .next (.error e) ∧ t = raise e s) ∨
      (∃ n out', s.nlen.toNat ≤ s.params.pixCap ∧ 64 ≤ s.nlen.toNat ∧ readHeader s.pix = .next n ∧
        storeChunks s.params.outCap s.pix (outCount s n) 0 s.out = .next out' ∧
        t = completeOk false (freeHidden { s with
          out := out', binsize := BitVec.ofNat 64 n, outlen := BitVec.ofNat 64 (outCount s n) })) := by
  show execDecode s = .next t ↔ _
  simp only [execDecode, guarded_eq_next, andThen_eq_next, Host.Outcome.next.injEq]
  constructor
  · rintro (h | ⟨_, h, n, hn, m, hm, rfl⟩)
    · exact .inl h
    · exact .inr ⟨n, m, (decodeChecks_eq_ok.mp h).1, (decodeChecks_eq_ok.mp h).2, hn, hm, rfl⟩
  · rintro (h | ⟨n, m, h1, h2, hn, hm, rfl⟩)
    · exact .inl h
    · exact .inr ⟨(), decodeChecks_eq_ok.mpr ⟨h1, h2⟩, n, hn, m, hm, rfl⟩

/-- Everything embedding does to the elements: the header bits, the payload bits, all others unchanged (R106). -/
theorem embed_read {pix pix' : Memory Byte} {bs : Nat} {cps : List CodePoint} (h : embed pix bs cps = .next pix')
    (hb : bs ≤ 8 * cps.length) (q : Nat) :
    Memory.read pix' q =
      if q < 64 then (Memory.read pix q).map (setLsb · (headerBit bs q))
      else if q < 64 + bs then
        (cps[(q - 64) / 8]?).bind fun cp => (Memory.read pix q).map (setLsb · (payloadBit cp q))
      else Memory.read pix q := by
  simp only [embed, andThen_eq_next] at h
  obtain ⟨m, hm, h⟩ := h
  rw [packBits_read h, packBits_read hm]
  by_cases h1 : q < 64
  · have h2 : ¬ 64 ≤ q := by omega
    rw [if_neg (show ¬ Config.headerBits ≤ q from h2), if_pos (Nat.zero_le q), Nat.sub_zero,
      bits_getElem? Config.headerBits bs q h1, if_pos h1]
    simp [headerBit]
  · have h2 : 64 ≤ q := by omega
    have hlen : (bits 64 bs)[q - 0]? = none := by
      rw [List.getElem?_eq_none_iff, bits_length]; omega
    simp only [h1, h2, if_true, if_false, Nat.zero_le, Config.headerBits, hlen]
    by_cases h3 : q < 64 + bs
    · have h4 : q - 64 < bs := by omega
      have h5 : (q - 64) / 8 < cps.length := by omega
      rw [if_pos h3, List.getElem?_take, if_pos h4, textBits_getElem?, List.getElem?_eq_getElem h5,
        Option.bind_some, Option.bind_some, bits_getElem? _ _ _ (Nat.mod_lt _ (by norm_num))]
      simp [payloadBit]
    · rw [if_neg h3, List.getElem?_take, if_neg (by omega)]

theorem embed_of_loaded (pix : Memory Byte) (bs : Nat) (cps : List CodePoint)
    (h : ∀ p, p < 64 + bs → ∃ v, Memory.read pix p = some v) : ∃ pix', embed pix bs cps = .next pix' := by
  obtain ⟨m, hm⟩ := packBits_of_loaded pix 0 (bits 64 bs) fun j hj => by
    rw [bits_length] at hj
    simpa using h j (by omega)
  obtain ⟨m', hm'⟩ := packBits_of_loaded m 64 ((textBits cps).take bs) fun j hj => by
    rw [List.length_take] at hj
    obtain ⟨v, hv⟩ := h (64 + j) (by omega)
    refine ⟨v, ?_⟩
    rw [packBits_read hm]
    rw [if_pos (Nat.zero_le _),
      show (bits Config.headerBits bs)[64 + j - 0]? = none by rw [List.getElem?_eq_none_iff, bits_length]; simp]
    exact hv
  exact ⟨m', by simp [embed, hm, hm']⟩

theorem embed_keeps {pix pix' : Memory Byte} {bs cap : Nat} {cps : List CodePoint} (h : embed pix bs cps = .next pix') :
    (Memory.wf pix = true → Memory.wf pix' = true) ∧
    (Memory.within cap pix = true → Memory.within cap pix' = true) := by
  simp only [embed, andThen_eq_next] at h
  obtain ⟨m, hm, h⟩ := h
  exact ⟨fun hw => (packBits_keeps (cap := cap) h).1 ((packBits_keeps (cap := cap) hm).1 hw),
    fun hw => (packBits_keeps h).2 ((packBits_keeps hm).2 hw)⟩

/-- Success of embedding says its positions were loaded. -/
theorem embed_loaded {pix pix' : Memory Byte} {bs : Nat} {cps : List CodePoint} (h : embed pix bs cps = .next pix')
    (hb : bs ≤ 8 * cps.length) (p : Nat) (hp : p < 64 + bs) : ∃ v, Memory.read pix p = some v := by
  simp only [embed, andThen_eq_next] at h
  obtain ⟨m, hm, h⟩ := h
  by_cases h1 : p < 64
  · simpa using packBits_loaded hm p (by simpa using h1)
  · obtain ⟨v, hv⟩ := packBits_loaded h (p - 64) (by rw [List.length_take, textBits_length]; omega)
    rw [show (64 : Nat) + (p - 64) = p by omega, packBits_read hm] at hv
    have : (bits 64 bs)[p - 0]? = none := by rw [List.getElem?_eq_none_iff, bits_length]; omega
    rw [if_pos (Nat.zero_le p)] at hv
    rw [show (bits Config.headerBits bs)[p - 0]? = none from this] at hv
    exact ⟨v, hv⟩

theorem embed_ne_fault (pix : Memory Byte) (bs : Nat) (cps : List CodePoint) (r : Fault) : embed pix bs cps ≠ .fault r := by
  simp [embed, andThen_eq_fault, packBits_ne_fault]

/-! ### Sizes -/

theorem encodeSize_le_avail (s : State) : encodeSize s ≤ s.nlen.toNat - 64 := Nat.min_le_left _ _

theorem encodeSize_le_want (s : State) : encodeSize s ≤ 8 * s.tlen.toNat := Nat.min_le_right _ _

theorem encodeSize_lt (s : State) : encodeSize s < 2 ^ 64 := by
  have := encodeSize_le_avail s
  have := s.nlen.isLt
  omega

theorem outCount_le_chunks (s : State) (n : Nat) : outCount s n ≤ (s.nlen.toNat - 64) / 8 := Nat.min_le_right _ _

theorem outCount_lt (s : State) (n : Nat) : outCount s n < 2 ^ 64 := by
  have := outCount_le_chunks s n
  have := s.nlen.isLt
  omega

/-- R6 and the check of `NLEN` bound the characters of DECODE by `OUT_CAP` (R124). -/
theorem outCount_le_cap {s : State} (h : s.params.outCapLegal = true) (h1 : s.nlen.toNat ≤ s.params.pixCap)
    (h2 : 64 ≤ s.nlen.toNat) (n : Nat) : outCount s n ≤ s.params.outCap := by
  have h3 := outCount_le_chunks s n
  simp only [Params.outCapLegal, decide_eq_true_eq] at h
  have h4 := h (by omega)
  omega

end Sys2Proof.Machine
end

