-- ==== Sys2Proof/Laws/Step.lean ====
section
/-! SUPPORT. One step: what it is when the block is idle or busy, and what a turn of the engine is. -/

namespace Sys2Proof.Machine

/-- A word decodes to a command exactly when it is the command's word (R61, R63). -/
theorem decodeCmd_eq_command_iff : ∀ (c : Byte) (i : Instr), decodeCmd c = .command i ↔ c = encode i := by
  intro c i
  cases i <;> revert c <;> decide

theorem step_idle {s : State} (h : s.busy = false) : step s = takeInput hostEvent s := by
  simp [step, advance, h]

theorem step_busy {s : State} (h : s.busy = true) : step s = busyTurn s := by
  simp [step, advance, h]

theorem step_event {s : State} {e : HostEvent} {es : List HostEvent} (h : s.busy = false) (hi : s.inputs = e :: es) :
    step s = hostEvent e { s with inputs := es } := by
  simp [step_idle h, takeInput, hi]

theorem step_engine {s : State} (h : s.busy = true) (ht : s.turns = []) : step s = engineTurn s := by
  simp [step_busy h, busyTurn, ht]

theorem step_busy_event {s : State} {e : HostEvent} {es : List HostEvent} {ts : List Agent} (h : s.busy = true)
    (ht : s.turns = .host :: ts) (hi : s.inputs = e :: es) :
    step s = busyHostEvent e { s with turns := ts, inputs := es } := by
  simp [step_busy h, busyTurn, ht, takeInput, hi]

theorem step_engine_turn {s : State} {ts : List Agent} (h : s.busy = true) (ht : s.turns = .engine :: ts) :
    step s = engineTurn { s with turns := ts } := by
  simp [step_busy h, busyTurn, ht]

/-- A turn of the engine, scheduled or not. -/
theorem step_engineMoves {s : State} {ts : List Agent} (h : s.engineMoves ts) : step s = engineTurn { s with turns := ts } := by
  rcases h with ⟨hb, ⟨ht, rfl⟩ | ht⟩
  · rw [step_engine hb ht, ← ht]
  · exact step_engine_turn hb ht

theorem takes_of_idle {s : State} {e : HostEvent} {es : List HostEvent} (h : s.busy = false) (hi : s.inputs = e :: es) :
    s.takes e := ⟨⟨es, hi⟩, .inl h⟩

theorem takes_of_turn {s : State} {e : HostEvent} {es : List HostEvent} {ts : List Agent} (ht : s.turns = .host :: ts)
    (hi : s.inputs = e :: es) : s.takes e := ⟨⟨es, hi⟩, .inr ⟨ts, ht⟩⟩

/-- Everything a step can be: an idle step, a host event, a turn of the engine, or a host's turn in the busy window. -/
theorem step_cases (s : State) :
    (s.busy = false ∧ s.inputs = [] ∧ step s = .next s) ∨
    (s.busy = false ∧ ∃ e es, s.inputs = e :: es ∧ step s = hostEvent e { s with inputs := es }) ∨
    (s.busy = true ∧ s.turns = [] ∧ step s = engineTurn s) ∨
    (s.busy = true ∧ ∃ ts, s.turns = .engine :: ts ∧ step s = engineTurn { s with turns := ts }) ∨
    (s.busy = true ∧ ∃ ts, s.turns = .host :: ts ∧ s.inputs = [] ∧ step s = .next { s with turns := ts }) ∨
    (s.busy = true ∧ ∃ ts e es, s.turns = .host :: ts ∧ s.inputs = e :: es ∧
      step s = busyHostEvent e { s with turns := ts, inputs := es }) := by
  cases hb : s.busy with
  | false =>
    cases hi : s.inputs with
    | nil => exact .inl ⟨rfl, rfl, by simp [step_idle hb, takeInput, hi]⟩
    | cons e es => exact .inr (.inl ⟨rfl, e, es, rfl, step_event hb hi⟩)
  | true =>
    cases ht : s.turns with
    | nil => exact .inr (.inr (.inl ⟨rfl, rfl, step_engine hb ht⟩))
    | cons a ts =>
      cases a with
      | engine => exact .inr (.inr (.inr (.inl ⟨rfl, ts, rfl, step_engine_turn hb ht⟩)))
      | host =>
        cases hi : s.inputs with
        | nil => exact .inr (.inr (.inr (.inr (.inl ⟨rfl, ts, rfl, rfl, by simp [step_busy hb, busyTurn, ht, takeInput, hi]⟩))))
        | cons e es => exact .inr (.inr (.inr (.inr (.inr ⟨rfl, ts, e, es, rfl, rfl, step_busy_event hb ht hi⟩))))

theorem setWidth_eq_low (v : Word) : v.setWidth 8 = v.extractLsb' 0 8 := by
  apply BitVec.eq_of_toNat_eq
  simp [BitVec.extractLsb'_toNat]

theorem runCommand_command {s : State} {i : Instr} (h : s.cmd = encode i) : runCommand s = exec i s := by
  simp [runCommand, (decodeCmd_eq_command_iff s.cmd i).mpr h]

theorem runCommand_illegal {s : State} (h : 5 ≤ s.cmd.toNat) :
    runCommand s = .next (raise (illegalCommand s.cmd) s) := by
  unfold runCommand
  cases hd : decodeCmd s.cmd with
  | command i =>
    have := (decodeCmd_eq_command_iff s.cmd i).mp hd
    rw [this] at h
    cases i <;> exact absurd h (by decide)
  | illegal why => rfl

theorem engineTurn_encode {s : State} (h : s.cmd = 0x01) : engineTurn s = encodeTurn s := by
  simp [engineTurn, (decodeCmd_eq_command_iff s.cmd .encode).mpr h]

theorem engineTurn_decode {s : State} (h : s.cmd = 0x02) : engineTurn s = decodeTurn s := by
  simp [engineTurn, (decodeCmd_eq_command_iff s.cmd .decode).mpr h]

/-- Every other word is one turn. -/
theorem engineTurn_short {s : State} (h1 : s.cmd ≠ 0x01) (h2 : s.cmd ≠ 0x02) : engineTurn s = runCommand s := by
  unfold engineTurn
  cases hd : decodeCmd s.cmd with
  | command i =>
    have := (decodeCmd_eq_command_iff s.cmd i).mp hd
    cases i <;> first | rfl | exact absurd this (by assumption)
  | illegal why => rfl

/-! ### Runs of several steps -/

theorem core_run_next (M : Host.Core) (n : Nat) (s t : M.State) (h : M.step s = .next t) : M.run (n + 1) s = M.run n t := by
  simp only [Host.Core.run, h]

theorem core_run_next_inv (M : Host.Core) (n : Nat) (s t : M.State) (h : M.run (n + 1) s = .next t) :
    ∃ u, M.step s = .next u ∧ M.run n u = .next t := by
  simp only [Host.Core.run] at h
  cases hs : M.step s with
  | next u => rw [hs] at h; exact ⟨u, rfl, h⟩
  | fault r => rw [hs] at h; cases h
  | refused r => rw [hs] at h; cases h

@[simp] theorem run_zero (s : State) : Sys2Proof.core.run 0 s = .next s := rfl

theorem run_succ {s t : State} (n : Nat) (h : step s = .next t) : Sys2Proof.core.run (n + 1) s = Sys2Proof.core.run n t :=
  core_run_next Sys2Proof.core n s t h

theorem run_succ_inv {s t : State} (n : Nat) (h : Sys2Proof.core.run (n + 1) s = .next t) :
    ∃ u, step s = .next u ∧ Sys2Proof.core.run n u = .next t :=
  core_run_next_inv Sys2Proof.core n s t h

/-- A run of `m + n` steps is the run of `n` steps from where `m` steps lead. -/
theorem run_add {s t : State} (m n : Nat) (h : Sys2Proof.core.run m s = .next t) :
    Sys2Proof.core.run (m + n) s = Sys2Proof.core.run n t := by
  induction m generalizing s with
  | zero => rw [run_zero] at h; cases h; simp
  | succ m ih =>
    obtain ⟨u, hs, h⟩ := run_succ_inv _ h
    rw [show m + 1 + n = (m + n) + 1 by omega, run_succ _ hs]
    exact ih h

end Sys2Proof.Machine
end

