-- ==== Sys2Proof/Laws/Engine.lean ====
section
/-! SUPPORT. Everything one turn of the engine can do in ENCODE and in DECODE: one inversion lemma for each. -/

namespace Sys2Proof.Machine

theorem storeChr_eq_next {s : State} {q : Nat} {c : Byte} {o : Memory Byte} :
    storeChr s q c = .next o ↔
      (q % 8 = 7 ∧ q / 8 < s.params.outCap ∧ o = Memory.write s.out (q / 8) c) ∨ (q % 8 ≠ 7 ∧ o = s.out) := by
  unfold storeChr
  split_ifs with h
  · simp [outWrite_eq_next, h]
  · simp [h, eq_comm]

theorem loadChr_eq_next {s : State} {q : Nat} {c : Byte} :
    loadChr s q = .next c ↔
      (q % 8 = 0 ∧ ∃ cp, Memory.read s.txt (q / 8) = some cp ∧ c = cp.setWidth 8) ∨ (q % 8 ≠ 0 ∧ c = s.chr) := by
  unfold loadChr
  split_ifs with h
  · simp only [andThen_eq_next, memRead_eq_next, Host.Outcome.next.injEq, h]
    simp [eq_comm]
  · simp [h, eq_comm]

theorem loadChr_ne_fault (s : State) (q : Nat) (f : Fault) : loadChr s q ≠ .fault f := by
  unfold loadChr
  split_ifs <;> simp [andThen_eq_fault, memRead_ne_fault]

theorem storeChr_ne_fault {s : State} {q : Nat} {c : Byte} (h : q / 8 < s.params.outCap) (f : Fault) :
    storeChr s q c ≠ .fault f := by
  unfold storeChr
  split_ifs
  · simp [outWrite_of_lt h]
  · simp

theorem pos_succ_toNat {p : Word} {n : Nat} (h : p.toNat < n) (hn : n < 2 ^ 64) : (p + 1).toNat = p.toNat + 1 := by
  rw [BitVec.toNat_add]
  simp
  omega

/-- A turn of ENCODE: its checks (which raise or start it), a header bit, a payload bit, or its completion (R185). -/
theorem encodeTurn_cases {s t : State} (h : encodeTurn s = .next t) :
    (s.checked = false ∧ ∃ e, encodeChecks s = .next (.error e) ∧ t = raise e s) ∨
    (s.checked = false ∧ ∃ cps, encodeChecks s = .next (.ok cps) ∧
      t = { s with hdr := BitVec.ofNat 64 (encodeSize s), pos := 0, checked := true }) ∨
    (s.checked = true ∧ s.pos.toNat < 64 ∧ ∃ m, lsbWrite s.pix s.pos.toNat (hdrTop s.hdr) = .next m ∧
      t = { s with pix := m, hdr := s.hdr <<< 1, pos := s.pos + 1 }) ∨
    (s.checked = true ∧ 64 ≤ s.pos.toNat ∧ s.pos.toNat < 64 + encodeSize s ∧
      ∃ c m, loadChr s (s.pos.toNat - 64) = .next c ∧ lsbWrite s.pix s.pos.toNat (chrTop c) = .next m ∧
        t = { s with pix := m, chr := c <<< 1, pos := s.pos + 1 }) ∨
    (s.checked = true ∧ 64 + encodeSize s ≤ s.pos.toNat ∧
      t = completeOk (truncates s) { s with binsize := BitVec.ofNat 64 (encodeSize s), checked := false }) := by
  unfold encodeTurn at h
  split_ifs at h with h1 h2 h3
  · rcases guarded_eq_next.mp h with ⟨e, he, rfl⟩ | ⟨cps, hc, h⟩
    · exact .inl ⟨h1, e, he, rfl⟩
    · cases h; exact .inr (.inl ⟨h1, cps, hc, rfl⟩)
  · simp only [encodeHeaderBit, andThen_eq_next, Host.Outcome.next.injEq] at h
    obtain ⟨m, hm, rfl⟩ := h
    exact .inr (.inr (.inl ⟨by simpa using h1, h2, m, hm, rfl⟩))
  · simp only [encodePayloadBit, andThen_eq_next, Host.Outcome.next.injEq] at h
    obtain ⟨c, hc, m, hm, rfl⟩ := h
    exact .inr (.inr (.inr (.inl ⟨by simpa using h1, by omega, h3, c, m, hc, hm, rfl⟩)))
  · cases h
    exact .inr (.inr (.inr (.inr ⟨by simpa using h1, by omega, rfl⟩)))

/-- A turn of DECODE: its checks (which raise or start it), a header bit, a payload bit, or its completion (R186). -/
theorem decodeTurn_cases {s t : State} (h : decodeTurn s = .next t) :
    (s.checked = false ∧ ∃ e, decodeChecks s = .next (.error e) ∧ t = raise e s) ∨
    (s.checked = false ∧ decodeChecks s = .next (.ok ()) ∧ t = { s with hdr := 0, pos := 0, checked := true }) ∨
    (s.checked = true ∧ s.pos.toNat < 64 ∧ ∃ b, lsbRead s.pix s.pos.toNat = .next b ∧
      t = { s with hdr := (s.hdr <<< 1) ||| b.setWidth 64, pos := s.pos + 1 }) ∨
    (s.checked = true ∧ 64 ≤ s.pos.toNat ∧ s.pos.toNat < 64 + 8 * outCount s s.hdr.toNat ∧
      ∃ b c o, lsbRead s.pix s.pos.toNat = .next b ∧
        c = ((if (s.pos.toNat - 64) % 8 = 0 then 0#8 else s.chr) <<< 1) ||| b.setWidth 8 ∧
        storeChr s (s.pos.toNat - 64) c = .next o ∧
        t = { s with out := o, chr := c, pos := s.pos + 1 }) ∨
    (s.checked = true ∧ 64 + 8 * outCount s s.hdr.toNat ≤ s.pos.toNat ∧
      t = completeOk false { s with
        binsize := s.hdr, outlen := BitVec.ofNat 64 (outCount s s.hdr.toNat), checked := false }) := by
  unfold decodeTurn at h
  split_ifs at h with h1 h2 h3
  · rcases guarded_eq_next.mp h with ⟨e, he, rfl⟩ | ⟨u, hc, h⟩
    · exact .inl ⟨h1, e, he, rfl⟩
    · cases h; exact .inr (.inl ⟨h1, hc, rfl⟩)
  · simp only [decodeHeaderBit, andThen_eq_next, Host.Outcome.next.injEq] at h
    obtain ⟨b, hb, rfl⟩ := h
    exact .inr (.inr (.inl ⟨by simpa using h1, h2, b, hb, rfl⟩))
  · simp only [decodePayloadBit, andThen_eq_next, Host.Outcome.next.injEq] at h
    obtain ⟨b, hb, o, ho, rfl⟩ := h
    exact .inr (.inr (.inr (.inl ⟨by simpa using h1, by omega, h3, b, _, o, hb, rfl, ho, rfl⟩)))
  · cases h
    exact .inr (.inr (.inr (.inr ⟨by simpa using h1, by omega, rfl⟩)))

end Sys2Proof.Machine
end

