-- ==== Sys2Proof/Laws/HostPort.lean ====
section
/-! SUPPORT. Everything a host event can do, outside and inside the busy window. -/

namespace Sys2Proof.Machine

/-- A host event while no command runs: a reset, a register write (of `CMD`, which runs or opens a command, or of an operand
register), an element write of `PIX` or `TXT`, or a read, which only replies. -/
theorem hostEvent_cases {s t : State} {e : HostEvent} (h : hostEvent e s = .next t) :
    (e = .reset ∧ t = applyReset s) ∨
    (∃ v, e = .regWrite 0 v ∧
      ((s.grain = .command ∧ runCommand (accept (v.setWidth 8) s) = .next t) ∨
        (s.grain = .request ∧ t = accept (v.setWidth 8) s))) ∨
    (∃ r v, e = .regWrite r v ∧ r ≠ 0 ∧ t = regWrite s r v) ∨
    (∃ a v, e = .pixWrite a v ∧ t = pixWrite a v s) ∨
    (∃ a v, e = .txtWrite a v ∧ fitsWidth s.params.cpWidth v = true ∧
      t = if a < s.params.txtCap then { s with txt := Memory.write s.txt a v } else s) ∨
    (∃ r, t = reply r s) := by
  cases e with
  | reset => cases h; exact .inl ⟨rfl, rfl⟩
  | regWrite r v =>
    simp only [hostEvent] at h
    split_ifs at h with hr
    · subst hr
      unfold issue at h
      split at h
      · exact .inr (.inl ⟨v, rfl, .inl ⟨by assumption, h⟩⟩)
      · cases h; exact .inr (.inl ⟨v, rfl, .inr ⟨by assumption, rfl⟩⟩)
    · cases h; exact .inr (.inr (.inl ⟨r, v, rfl, hr, rfl⟩))
  | pixWrite a v => cases h; exact .inr (.inr (.inr (.inl ⟨a, v, rfl, rfl⟩)))
  | txtWrite a v =>
    simp only [hostEvent, txtWrite] at h
    split_ifs at h with hv ha
    · cases h; exact .inr (.inr (.inr (.inr (.inl ⟨a, v, rfl, hv, by rw [if_pos ha]⟩))))
    · cases h; exact .inr (.inr (.inr (.inr (.inl ⟨a, v, rfl, hv, by rw [if_neg ha]⟩))))
  | regRead r => cases h; exact .inr (.inr (.inr (.inr (.inr ⟨_, rfl⟩))))
  | pixRead a =>
    simp only [hostEvent, andThen_eq_next, Host.Outcome.next.injEq] at h
    obtain ⟨v, _, rfl⟩ := h
    exact .inr (.inr (.inr (.inr (.inr ⟨_, rfl⟩))))
  | txtRead a =>
    simp only [hostEvent, andThen_eq_next, Host.Outcome.next.injEq] at h
    obtain ⟨v, _, rfl⟩ := h
    exact .inr (.inr (.inr (.inr (.inr ⟨_, rfl⟩))))
  | outRead a =>
    simp only [hostEvent, andThen_eq_next, Host.Outcome.next.injEq] at h
    obtain ⟨v, _, rfl⟩ := h
    exact .inr (.inr (.inr (.inr (.inr ⟨_, rfl⟩))))

/-- A host event while a command runs: a reset, nothing, or a reply. -/
theorem busyHostEvent_cases {s t : State} {e : HostEvent} (h : busyHostEvent e s = .next t) :
    (e = .reset ∧ t = applyReset s) ∨ t = s ∨ (e = .regRead 1 ∧ t = reply (.reg 1 (regRead s 1)) s) := by
  cases e with
  | reset => cases h; exact .inl ⟨rfl, rfl⟩
  | regRead r =>
    simp only [busyHostEvent] at h
    split_ifs at h with hr
    subst hr; cases h; exact .inr (.inr ⟨rfl, rfl⟩)
  | regWrite r v => cases h; exact .inr (.inl rfl)
  | pixWrite a v => cases h; exact .inr (.inl rfl)
  | txtWrite a v => cases h; exact .inr (.inl rfl)
  | pixRead a => simp [busyHostEvent] at h
  | txtRead a => simp [busyHostEvent] at h
  | outRead a => simp [busyHostEvent] at h

/-- A host's element read answers only an element inside the memory that has a value. -/
theorem portRead_eq_next {α : Type} {space : Space} {cap a : Nat} {m : Memory α} {v : α} :
    portRead space cap m a = .next v ↔ a < cap ∧ Memory.read m a = some v := by
  unfold portRead
  split_ifs with h
  · simp [memRead_eq_next, h]
  · simp [h]

theorem portRead_ne_fault {α : Type} {space : Space} {cap a : Nat} {m : Memory α} {f : Fault} :
    portRead space cap m a ≠ .fault f := by
  unfold portRead
  split_ifs
  · exact memRead_ne_fault
  · simp

/-- `PixWrite` keeps the canonical form and the capacity bound. -/
theorem pixWrite_keeps {s : State} (a : Nat) (v : Byte) :
    (Memory.wf s.pix = true → Memory.wf (pixWrite a v s).pix = true) ∧
    (Memory.within s.params.pixCap s.pix = true → Memory.within s.params.pixCap (pixWrite a v s).pix = true) := by
  unfold pixWrite
  split_ifs with h
  · exact ⟨Memory.wf_write _ _ _, Memory.within_write _ _ _ _ h⟩
  · exact ⟨id, id⟩

/-- `TxtWrite` keeps the canonical form and the capacity bound. -/
theorem txtWrite_keeps {s t : State} {a : Nat} {v : CodePoint} (h : txtWrite a v s = .next t) :
    (Memory.wf s.txt = true → Memory.wf t.txt = true) ∧
    (Memory.within s.params.txtCap s.txt = true → Memory.within s.params.txtCap t.txt = true) := by
  unfold txtWrite at h
  split_ifs at h with hv ha
  · cases h; exact ⟨Memory.wf_write _ _ _, Memory.within_write _ _ _ _ ha⟩
  · cases h; exact ⟨id, id⟩

/-- A register write leaves everything but the operand registers. -/
theorem regWrite_frame (s : State) (r : Nat) (v : Word) :
    regWrite s r v = { s with
      nlen := (regWrite s r v).nlen
      tlen := (regWrite s r v).tlen
      bitidx := (regWrite s r v).bitidx
      bitdat := (regWrite s r v).bitdat } := by
  unfold regWrite
  split <;> rfl

/-- The memory after reset is canonical. -/
theorem resetWith_wf (p : Params) :
    Memory.wf (State.resetWith p).pix = true ∧ Memory.wf (State.resetWith p).txt = true ∧
    Memory.wf (State.resetWith p).out = true := ⟨rfl, rfl, rfl⟩

end Sys2Proof.Machine
end

