-- ==== Sys2Proof/Laws/PerInstr.lean ====
section
/-! SUPPORT. Statements made for every command, one lemma per constructor. -/

namespace Sys2Proof.Laws.Encoding

/-- R60 to R63: the command is well-formed, its word has `ZERO` = 0 and the command's `OP`, and the word decodes to it. -/
def Statement (i : Instr) : Prop :=
  i.wellFormed = true ∧ fieldZero (encode i) = 0 ∧ fieldOp (encode i) = opOf i ∧ decodeCmd (encode i) = .command i

theorem nop : Statement .nop := by unfold Statement; decide

theorem encode : Statement .encode := by unfold Statement; decide

theorem decode : Statement .decode := by unfold Statement; decide

theorem rdbit : Statement .rdbit := by unfold Statement; decide

theorem wrbit : Statement .wrbit := by unfold Statement; decide

end Sys2Proof.Laws.Encoding
end

