-- ==== Sys2Proof/Tests/Slice0.lean ====
section
/-! SUPPORT. Tests: words written out from the encoding, ill-formed parameters, vectors of 95_test_vectors.md, and a witness
for the hypotheses of every obligation that has some. The obligations a witness serves stand in its docstring. -/

namespace Sys2Proof.Tests

open Sys2Proof Sys2Proof.Machine

/-! ### Helpers -/

/-- The result is a next state of which `p` holds. -/
def ends (r : Result State) (p : State → Bool) : Bool :=
  match r with
  | .next t => p t
  | .fault _ => false
  | .refused _ => false

theorem next_of_ends {r : Result State} {p : State → Bool} (h : ends r p = true) : ∃ t, r = .next t ∧ p t = true := by
  cases r with
  | next t => exact ⟨t, rfl, h⟩
  | fault r => exact absurd h (by simp [ends])
  | refused r => exact absurd h (by simp [ends])

/-- A memory holding `f i` at each `i < n`. -/
def fill {α : Type} (n : Nat) (f : Nat → α) : Memory α := (List.range n).map fun i => (i, f i)

/-- Small legal parameters: `(90 - 64) div 8 = 3`. -/
def small : Params := ⟨90, 3, 3, 21⟩

def idle : State := State.resetWith small

/-- A block with these operands. -/
def holding (n : Nat) (f : Nat → Byte) (cps : List CodePoint) : State :=
  { idle with
    nlen := BitVec.ofNat 64 n
    pix := fill n f
    tlen := BitVec.ofNat 64 cps.length
    txt := fill cps.length fun i => cps[i]?.getD 0 }

/-- The values of a memory at `0, ..., n - 1`. -/
def values (m : Memory Byte) (n : Nat) : List (Option Byte) := (List.range n).map fun i => Memory.read m i

/-- V-E5: mixed pixel values, room to spare. -/
def vE5 : State := holding 90 (fun i => BitVec.ofNat 8 (7 * i + 3)) [0, 255, 90]

/-- V-E9: the text fits exactly. -/
def vE9 : State := holding 72 (fun _ => 0x01) [0]

/-- V-E3: the text does not fit. -/
def vE3 : State := holding 75 (fun _ => 0x00) [255, 255]

/-- V-E7: a buffer of exactly 64 elements, a text that is not empty. -/
def vE7 : State := holding 64 (fun _ => 0xFF) [65]

/-- V-E8: a buffer of exactly 64 elements, the empty text. -/
def vE8 : State := holding 64 (fun _ => 0xFF) []

/-- V-D3: a header of 24 over two chunks. -/
def vD3 : State := holding 80 (fun i => if i = 59 ∨ i = 60 ∨ 64 ≤ i then 0xFF else 0xFE) []

/-- V-C13: eight elements, `PIX[5]` = 0xA7, `BITIDX` = 5. -/
def vC : State := { holding 8 (fun i => if i = 5 then 0xA7 else 0x40) [] with bitidx := 5 }

/-! ### Decoding and encoding: the words of the opcode table, `ZERO` then `OP` (R60, R61) -/

theorem test_decode_nop : decodeCmd 0b00000000#8 = .command .nop := by decide
theorem test_decode_encode : decodeCmd 0b00000001#8 = .command .encode := by decide
theorem test_decode_decode : decodeCmd 0b00000010#8 = .command .decode := by decide
theorem test_decode_rdbit : decodeCmd 0b00000011#8 = .command .rdbit := by decide
theorem test_decode_wrbit : decodeCmd 0b00000100#8 = .command .wrbit := by decide
/-- V-C21 to V-C23. -/
theorem test_decode_illegal : decodeCmd 0x05#8 = .illegal (.opUnassigned 5) ∧ decodeCmd 0x07#8 = .illegal (.opUnassigned 7) ∧
    decodeCmd 0x08#8 = .illegal (.zeroNotZero 1) ∧ decodeCmd 0xFF#8 = .illegal (.zeroNotZero 31) := by decide
theorem test_encode_words : [Instr.nop, .encode, .decode, .rdbit, .wrbit].map encode = [0x00, 0x01, 0x02, 0x03, 0x04] := by decide
theorem test_table_word : decodeTableWord 8 0x04 = some .wrbit ∧ decodeTableWord 8 0x05 = none := by decide

/-! ### Well-formedness: one ill-formed term for each check (R5, R6; no term of `Instr` is ill-formed, R62) -/

theorem test_params_legal : Config.params.legal = true ∧ small.legal = true := by decide
theorem test_pixCap_too_large : Params.legal ⟨2 ^ 64, 3, 2 ^ 64, 21⟩ = false := by decide
theorem test_txtCap_too_large : Params.legal ⟨90, 2 ^ 64, 3, 21⟩ = false := by decide
theorem test_outCap_too_small : Params.legal ⟨90, 3, 2, 21⟩ = false := by decide
theorem test_cpWidth_too_small : Params.legal ⟨90, 3, 3, 7⟩ = false := by decide
theorem test_cpWidth_too_large : Params.legal ⟨90, 3, 3, 65⟩ = false := by decide
theorem test_txtWrite_too_wide : fitsWidth 21 0x1FFFFF = true ∧ fitsWidth 21 0x200000 = false := by decide

/-! ### One step of each command -/

/-- V-C20. -/
theorem test_nop : ends (execNop { idle with errinfo0 := 7, status := 0x16 }) (fun t =>
    t.status == 0x02 && t.errinfo0 == 0) = true := by decide

/-- V-C11. -/
theorem test_rdbit : ends (execRdbit vC) (fun t => t.bitdat == 1 && t.status == 0x02 && t.pix == vC.pix) = true := by
  decide +kernel

/-- V-C15. -/
theorem test_rdbit_past_the_end : ends (execRdbit { vC with bitidx := 8, bitdat := 1 }) (fun t =>
    t.status == 0x36 && t.errinfo0 == 8 && t.errinfo1 == 8 && t.errinfo2 == 0 && t.bitdat == 1) = true := by decide +kernel

/-- V-C13. -/
theorem test_wrbit : ends (execWrbit vC) (fun t =>
    Memory.read t.pix 5 == some 0xA6 && Memory.read t.pix 4 == some 0x40 && t.status == 0x02) = true := by decide +kernel

/-- V-C16. -/
theorem test_wrbit_last_index : ends (execWrbit { vC with bitidx := 18446744073709551615 }) (fun t =>
    t.status == 0x36 && t.errinfo1 == 18446744073709551615 && t.pix == vC.pix) = true := by decide +kernel

/-- V-E3. -/
theorem test_encode_truncates : ends (execEncode vE3) (fun t =>
    t.binsize == 11 && t.status == 0x0A &&
    values t.pix 76 == List.replicate 60 (some 0x00) ++ [some 0x01, some 0x00, some 0x01, some 0x01] ++
      List.replicate 11 (some 0x01) ++ [none]) = true := by decide +kernel

/-- V-E13. -/
theorem test_encode_lowest_offender : ends (execEncode (holding 90 (fun _ => 0) [72, 300, 400])) (fun t =>
    t.status == 0x26 && t.errinfo0 == 255 && t.errinfo1 == 300 && t.errinfo2 == 1) = true := by decide +kernel

/-- V-D3. -/
theorem test_decode_long_header : ends (execDecode vD3) (fun t =>
    t.binsize == 24 && t.outlen == 2 && values t.out 3 == [some 255, some 255, none] && t.status == 0x02) = true := by
  decide +kernel

/-- V-D1. -/
theorem test_decode_all_ones : ends (execDecode (holding 72 (fun _ => 0xFF) [])) (fun t =>
    t.binsize == 18446744073709551615 && t.outlen == 1 && values t.out 2 == [some 255, none]) = true := by decide +kernel

/-! ### Steps -/

/-- V-C24: the step runs ENCODE on the value 0x101. V-E9's result. -/
theorem test_step_ignores_high_bits : ends (step { vE9 with inputs := [.regWrite 0 0x101] }) (fun t =>
    t.cmd == 0x01 && t.binsize == 8 && t.status == 0x02 && t.inputs == []) = true := by decide +kernel

/-- V-C21. -/
theorem test_step_illegal : ends (step { idle with inputs := [.regWrite 0 0x05] }) (fun t =>
    t.cmd == 0x05 && t.status == 0x46 && t.errinfo0 == 0 && t.errinfo1 == 5 && t.errinfo2 == 0) = true := by decide

/-- The step after `withFetchWord` runs the word first after reset: DECODE with `NLEN` = 0 (V-D7's error). -/
theorem test_fetch_word : ends (step (State.reset.withFetchWord 8 0x02)) (fun t =>
    t.cmd == 0x02 && t.status == 0x16 && t.errinfo0 == 64 && t.errinfo1 == 0) = true := by decide

/-- R176, R185: in the fine grain the first turn of V-E9's ENCODE starts the header phase, and the block is busy. -/
theorem test_window_starts : ends (step { vE9 with cmd := 0x01, status := 0x01, grain := .request }) (fun t =>
    t.busy && t.hdr == 8 && t.pos == 0 && t.checked) = true := by decide +kernel

/-! ### Witnesses -/

theorem read_fill {α : Type} (n : Nat) (f : Nat → α) (p : Nat) (h : p < n) : Memory.read (fill n f) p = some (f p) := by
  have key : ∀ (m k : Nat), k ≤ p → p < k + m → Memory.read ((List.range' k m).map fun i => (i, f i)) p = some (f p) := by
    intro m
    induction m with
    | zero => omega
    | succ m ih =>
      intro k h1 h2
      simp only [List.range'_succ, List.map_cons, Memory.read]
      split_ifs with hk
      · rw [hk]
      · exact ih (k + 1) (by omega) (by omega)
  rw [fill, List.range_eq_range']
  exact key n 0 (by omega) (by omega)

theorem loaded_holding (n : Nat) (f : Nat → Byte) (cps : List CodePoint) (a b : Nat) (hb : b ≤ n) :
    PixLoaded (holding n f cps) a b :=
  fun p _ hp => ⟨f p, read_fill n f p (by omega)⟩

theorem loaded_fill {s : State} {n : Nat} {f : Nat → Byte} (h : s.pix = fill n f) (a b : Nat) (hb : b ≤ n) : PixLoaded s a b :=
  fun p _ hp => ⟨f p, by rw [h]; exact read_fill n f p (by omega)⟩

/-- ResetEventClearsTheBlock, both cases. -/
theorem witness_reset_event :
    (let s := { idle with inputs := [.reset] }; s.inputs = .reset :: [] ∧ s.busy = false) ∧
    (let s := { idle with inputs := [.reset], status := 0x01, turns := [.host] };
      s.inputs = .reset :: [] ∧ s.busy = true ∧ s.turns = .host :: []) := by decide

/-- IllegalWordsAreRejected: the words where its clauses meet. -/
theorem witness_words : (0x04#8).toNat < 5 ∧ 5 ≤ (0x05#8).toNat ∧ (0x07#8).toNat < 8 ∧ 8 ≤ (0x08#8).toNat ∧ 8 ≤ (0xFF#8).toNat := by
  decide

/-- StepRunsTheDecodedCommand (V-C24). -/
theorem witness_step :
    let s := { vE9 with inputs := [.regWrite 0 0x101] }
    s.busy = false ∧ s.grain = .command ∧ s.inputs = .regWrite 0 0x101 :: [] ∧
      decodeCmd ((0x101 : Word).extractLsb' 0 8) = .command .encode := by decide

/-- IllegalWordCompletesWithError, at both ends of the range. -/
theorem witness_illegal :
    let s := { idle with inputs := [.regWrite 0 0x05] }
    s.busy = false ∧ s.grain = .command ∧ s.inputs = .regWrite 0 0x05 :: [] ∧
      5 ≤ ((0x05 : Word).extractLsb' 0 8).toNat ∧ 5 ≤ ((0xFF : Word).extractLsb' 0 8).toNat := by decide

/-- IdleStepHoldsAllState. -/
theorem witness_idle : idle.busy = false ∧ idle.inputs = [] := by decide

/-- RdbitReadsTheBit, WrbitWritesTheBit: the last legal position of a buffer shorter than a header (V-C17). -/
theorem witness_bit : let s := { vC with bitidx := 7 }
    s.nlen.toNat ≤ s.params.pixCap ∧ s.bitidx.toNat < s.nlen.toNat ∧ Memory.read s.pix s.bitidx.toNat = some 0x40 := by
  decide +kernel

/-- RdbitReadsTheBit, WrbitWritesTheBit: each error clause at its boundary (V-C19, V-C15). -/
theorem witness_bit_errors :
    (let s := { idle with nlen := 91 }; s.params.pixCap < s.nlen.toNat) ∧
    (let s := { vC with bitidx := 8 }; s.nlen.toNat ≤ s.params.pixCap ∧ s.nlen.toNat ≤ s.bitidx.toNat) := by decide

/-- BitCommandsRefuseUnwritten. -/
theorem witness_bit_unwritten : let s := { idle with nlen := 1 }
    s.nlen.toNat ≤ s.params.pixCap ∧ s.bitidx.toNat < s.nlen.toNat ∧ Memory.read s.pix s.bitidx.toNat = none := by decide

theorem text_ready (cps : List CodePoint) (n : Nat) (f : Nat → Byte) (m : Nat) (hm : m ≤ cps.length)
    (h : ∀ k, k < m → (cps[k]?.getD 0).toNat ≤ 255) : TextPrefixReady (holding n f cps) m :=
  fun k hk => ⟨_, read_fill cps.length _ k (by omega), h k hk⟩

/-- EncodeEmbedsTheText: V-E5 (room to spare). -/
theorem witness_encode : EncodeReady vE5 :=
  ⟨by decide, by decide, by decide, text_ready [0, 255, 90] 90 _ 3 (by decide) (by decide),
    loaded_holding 90 _ [0, 255, 90] _ _ (by decide)⟩

/-- EncodeEmbedsTheText: V-E3 (a truncated text). -/
theorem witness_encode_truncated : EncodeReady vE3 :=
  ⟨by decide, by decide, by decide, text_ready [255, 255] 75 _ 2 (by decide) (by decide),
    loaded_holding 75 _ [255, 255] _ _ (by decide)⟩

/-- EncodeEmbedsTheText: V-E7 (no payload). -/
theorem witness_encode_header_only : EncodeReady vE7 :=
  ⟨by decide, by decide, by decide, text_ready [65] 64 _ 1 (by decide) (by decide),
    loaded_holding 64 _ [65] _ _ (by decide)⟩

/-- EncodeRaisesInOrder, each clause (V-E16, V-E17, V-E12, V-E13). -/
theorem witness_encode_errors :
    (let s := { idle with nlen := 91 }; s.params.pixCap < s.nlen.toNat) ∧
    (let s := { idle with nlen := 90, tlen := 4 }; s.nlen.toNat ≤ s.params.pixCap ∧ s.params.txtCap < s.tlen.toNat) ∧
    (let s := { idle with nlen := 63 };
      s.nlen.toNat ≤ s.params.pixCap ∧ s.tlen.toNat ≤ s.params.txtCap ∧ s.nlen.toNat < 64) ∧
    (let s := holding 64 (fun _ => 0) [72, 256, 400];
      s.nlen.toNat ≤ s.params.pixCap ∧ s.tlen.toNat ≤ s.params.txtCap ∧ 64 ≤ s.nlen.toNat ∧ 1 < s.tlen.toNat ∧
        TextPrefixReady s 1 ∧ Memory.read s.txt 1 = some 256 ∧ 255 < (256 : CodePoint).toNat) :=
  ⟨by decide, by decide, by decide, by decide, by decide, by decide, by decide,
    text_ready [72, 256, 400] 64 _ 1 (by decide) (by decide), by decide, by decide⟩

/-- EncodeRefusesUnwritten: an unwritten text element, and the last position ENCODE would write. -/
theorem witness_encode_unwritten :
    (let s := { vE9 with tlen := 2 };
      s.nlen.toNat ≤ s.params.pixCap ∧ s.tlen.toNat ≤ s.params.txtCap ∧ 64 ≤ s.nlen.toNat ∧ 1 < s.tlen.toNat ∧
        TextPrefixReady s 1 ∧ Memory.read s.txt 1 = none) ∧
    (let s := { vE9 with pix := fill 71 fun _ => 0 };
      s.nlen.toNat ≤ s.params.pixCap ∧ s.tlen.toNat ≤ s.params.txtCap ∧ 64 ≤ s.nlen.toNat ∧
        TextPrefixReady s s.tlen.toNat ∧ 71 < 64 + min (s.nlen.toNat - 64) (8 * s.tlen.toNat) ∧ PixLoaded s 0 71 ∧
        Memory.read s.pix 71 = none) :=
  ⟨⟨by decide, by decide, by decide, by decide, text_ready [0] 72 (fun _ => 1) 1 (by decide) (by decide), by decide⟩,
    ⟨by decide, by decide, by decide, text_ready [0] 72 (fun _ => 1) 1 (by decide) (by decide), by decide,
      loaded_fill (n := 71) (f := fun _ => 0) rfl _ _ (by decide), by decide +kernel⟩⟩

/-- EncodeChangesOnlyLsbs, EncodeTwiceChangesNothing, CompletionSetsTheFlags: V-E5 runs. -/
theorem witness_encode_runs : ∃ t, exec .encode vE5 = .next t ∧ t.err = false := by
  obtain ⟨t, h, ht⟩ := next_of_ends (r := execEncode vE5) (p := fun t => !t.err) (by decide +kernel)
  exact ⟨t, h, by simpa using ht⟩

/-- EncodeIgnoresOldLsbs: V-E5 beside a buffer with every bit 0 flipped. -/
theorem witness_encode_other_lsbs :
    let s' := { vE5 with pix := fill 90 fun i => BitVec.ofNat 8 (7 * i + 3) ^^^ 1, bitidx := 9 }
    s'.params = vE5.params ∧ s'.nlen = vE5.nlen ∧ s'.tlen = vE5.tlen ∧
    (∀ k, k < vE5.tlen.toNat → Memory.read s'.txt k = Memory.read vE5.txt k) ∧
    (∀ p, p < vE5.nlen.toNat →
      (Memory.read s'.pix p).map (fun v => v.extractLsb' 1 7) = (Memory.read vE5.pix p).map (fun v => v.extractLsb' 1 7)) ∧
    ∃ t, exec .encode vE5 = .next t ∧ t.err = false :=
  ⟨rfl, rfl, rfl, fun _ _ => rfl, by decide +kernel, witness_encode_runs⟩

/-- DecodeExtractsTheText: V-D3, with the stored chunks bounded by the buffer. -/
theorem witness_decode : DecodeReady vD3 :=
  ⟨by decide, by decide, by decide, loaded_holding 80 _ [] _ _ (by decide), loaded_holding 80 _ [] _ _ (by decide +kernel)⟩

/-- DecodeRaisesInOrder, each clause at its boundary. -/
theorem witness_decode_errors :
    (let s := { idle with nlen := 91 }; s.params.pixCap < s.nlen.toNat) ∧
    (let s := { idle with nlen := 63 }; s.nlen.toNat ≤ s.params.pixCap ∧ s.nlen.toNat < 64) := by decide

/-- DecodeRefusesUnwritten: the last position of the header, and the last position of the last chunk. -/
theorem witness_decode_unwritten :
    (let s := { vD3 with pix := fill 63 fun _ => 0 };
      s.params.outCapLegal = true ∧ s.nlen.toNat ≤ s.params.pixCap ∧ 64 ≤ s.nlen.toNat ∧ PixLoaded s 0 63 ∧
        Memory.read s.pix 63 = none) ∧
    (let s := { vD3 with pix := fill 79 fun _ => 1 };
      s.params.outCapLegal = true ∧ s.nlen.toNat ≤ s.params.pixCap ∧ 64 ≤ s.nlen.toNat ∧ PixLoaded s 0 64 ∧
        79 < 64 + 8 * decodedLength s ∧ PixLoaded s 64 79 ∧ Memory.read s.pix 79 = none) :=
  ⟨⟨by decide, by decide, by decide, loaded_fill (n := 63) (f := fun _ => 0) rfl _ _ (by decide), by decide +kernel⟩,
    ⟨by decide, by decide, by decide, loaded_fill (n := 79) (f := fun _ => 1) rfl _ _ (by decide), by decide +kernel,
      loaded_fill (n := 79) (f := fun _ => 1) rfl _ _ (by decide), by decide +kernel⟩⟩

/-- DecodeTwiceIsTheSame: V-D3 runs. -/
theorem witness_decode_runs : ∃ t, exec .decode vD3 = .next t ∧ t.err = false := by
  obtain ⟨t, h, ht⟩ := next_of_ends (r := execDecode vD3) (p := fun t => !t.err) (by decide +kernel)
  exact ⟨t, h, by simpa using ht⟩

/-- DecodeDependsOnlyOnLsbs: V-D8 beside V-D3, other registers different. -/
theorem witness_decode_other_bits :
    let s' := { vD3 with pix := fill 80 (fun i => if i = 59 ∨ i = 60 ∨ 64 ≤ i then 0x01 else 0x00), tlen := 3, outlen := 2 }
    s'.params = vD3.params ∧ s'.nlen = vD3.nlen ∧
    (∀ p, p < vD3.nlen.toNat →
      (Memory.read s'.pix p).map (fun v => v.toNat % 2) = (Memory.read vD3.pix p).map (fun v => v.toNat % 2)) ∧
    ∃ t, exec .decode vD3 = .next t :=
  ⟨rfl, rfl, by decide +kernel, witness_decode_runs.imp fun _ h => h.1⟩

/-- RoundTripReturnsTheText: V-E9, where the text fits exactly; the later state is the one ENCODE leaves. -/
theorem witness_round_trip : vE9.params.outCapLegal = true ∧ ∃ t, exec .encode vE9 = .next t ∧ t.err = false ∧
    8 * vE9.tlen.toNat ≤ vE9.nlen.toNat - 64 ∧ t.params = vE9.params ∧ t.nlen = vE9.nlen := by
  obtain ⟨t, h, ht⟩ := next_of_ends (r := execEncode vE9)
    (p := fun t => !t.err && decide (t.params = vE9.params) && decide (t.nlen = vE9.nlen)) (by decide +kernel)
  simp only [Bool.and_eq_true, Bool.not_eq_true', decide_eq_true_eq] at ht
  exact ⟨by decide, t, h, ht.1.1, by decide, ht.1.2, ht.2⟩

/-- TruncationRoundTripCutsTheText: V-E3; the later state is the one ENCODE leaves. -/
theorem witness_truncation : vE3.params.outCapLegal = true ∧ ∃ t, exec .encode vE3 = .next t ∧ t.err = false ∧
    vE3.nlen.toNat - 64 < 8 * vE3.tlen.toNat ∧ t.params = vE3.params ∧ t.nlen = vE3.nlen := by
  obtain ⟨t, h, ht⟩ := next_of_ends (r := execEncode vE3)
    (p := fun t => !t.err && decide (t.params = vE3.params) && decide (t.nlen = vE3.nlen)) (by decide +kernel)
  simp only [Bool.and_eq_true, Bool.not_eq_true', decide_eq_true_eq] at ht
  exact ⟨by decide, t, h, ht.1.1, by decide, ht.1.2, ht.2⟩

/-- EmptyPayloadDecodesToNothing: V-E8 (the empty text) and V-E7 (a text that does not fit at all). -/
theorem witness_empty_payload :
    ((∃ t, exec .encode vE8 = .next t ∧ t.err = false) ∧ vE8.tlen.toNat = 0) ∧
    ((∃ t, exec .encode vE7 = .next t ∧ t.err = false) ∧ vE7.nlen.toNat = 64) := by
  obtain ⟨t, h, ht⟩ := next_of_ends (r := execEncode vE8) (p := fun t => !t.err) (by decide +kernel)
  obtain ⟨u, h', hu⟩ := next_of_ends (r := execEncode vE7) (p := fun t => !t.err) (by decide +kernel)
  exact ⟨⟨⟨t, h, by simpa using ht⟩, by decide⟩, ⟨⟨u, h', by simpa using hu⟩, by decide⟩⟩

/-- FatalErrorsArePrecise: V-C15 ends in an error. -/
theorem witness_fatal : ∃ t, exec .rdbit { vC with bitidx := 8 } = .next t ∧ t.err = true := by
  obtain ⟨t, h, ht⟩ := next_of_ends (r := execRdbit { vC with bitidx := 8 }) (p := fun t => t.err) (by decide +kernel)
  exact ⟨t, h, ht⟩

/-- CommandsWriteOnlyTheirResults: a WRBIT that stores. -/
theorem witness_writes : ∃ t, exec .wrbit vC = .next t ∧ t.err = false := by
  obtain ⟨t, h, ht⟩ := next_of_ends (r := execWrbit vC) (p := fun t => !t.err) (by decide +kernel)
  exact ⟨t, h, by simpa using ht⟩

/-- A DECODE in the middle of its payload: one chunk stored, the host's turn next. -/
def running : State :=
  { vD3 with
    cmd := 0x02, status := 0x01, checked := true, pos := 72, hdr := 24, chr := 0xFF, out := [(0, 0xFF)]
    grain := .request, turns := [.host], inputs := [.regRead 1] }

/-- An idle block that holds a decoded text, which the host reads. -/
def decodedText : State :=
  { vD3 with
    cmd := 0x02, status := 0x02, binsize := 24, outlen := 2, out := [(0, 0xFF), (1, 0xFF)], inputs := [.outRead 1] }

/-- StepKeepsTheInvariant, NoStepFaults, BusyHostReadsOnlyStatus: a running command satisfies the invariant, and steps. -/
theorem witness_inv_running : running.Inv ∧ running.busy = true ∧ running.turns = [.host] ∧
    running.inputs = [.regRead 1] ∧ ∃ t, step running = .next t := by
  refine ⟨?_, by decide, rfl, rfl, ?_⟩
  · constructor <;> first
      | decide +kernel
      | (intro _ _ k hk
         have h : running.pos.toNat = 72 := by decide
         have h0 : k = 0 := by omega
         subst h0
         decide)
  · obtain ⟨t, h, _⟩ := next_of_ends (r := step running) (p := fun _ => true) (by decide +kernel)
    exact ⟨t, h⟩

/-- The invariant says nothing of the pending events. -/
theorem inv_with_inputs {s : State} (h : s.Inv) (es : List HostEvent) : ({ s with inputs := es } : State).Inv := by
  cases h
  constructor <;> assumption

/-- BusyHostReadsOnlyStatus: a running command refuses a read of another register and of each memory. -/
theorem witness_busy_reads :
    ∀ e ∈ [HostEvent.regRead 0, .pixRead 0, .txtRead 0, .outRead 0],
      let s := { running with inputs := [e] }
      s.Inv ∧ s.busy = true ∧ s.turns = [.host] ∧ s.inputs = [e] ∧ step s = .refused .busyRead := by
  intro e he
  refine ⟨inv_with_inputs witness_inv_running.1 _, witness_inv_running.2.1, rfl, rfl, ?_⟩
  simp only [List.mem_cons, List.not_mem_nil, or_false] at he
  rcases he with rfl | rfl | rfl | rfl <;> rfl

/-- StepKeepsTheInvariant, StepKeepsTheParameters, DecodedTextIsReadable: an idle block satisfies the invariant, and steps. -/
theorem witness_inv_idle : decodedText.Inv ∧ decodedText.busy = false ∧ decodedText.inputs = [.outRead 1] ∧
    1 < decodedText.outlen.toNat ∧ ∃ t, step decodedText = .next t := by
  refine ⟨?_, by decide, rfl, by decide, ?_⟩
  · constructor <;> first
      | decide +kernel
      | (intro h; exact absurd h (by decide))
  · obtain ⟨t, h, _⟩ := next_of_ends (r := step decodedText) (p := fun _ => true) (by decide +kernel)
    exact ⟨t, h⟩

/-- OnlyResetClearsStatus: a reset of a block that has completed a command, and of one that runs one. -/
theorem witness_status_cleared :
    (let s := { decodedText with inputs := [.reset] };
      s.status ≠ 0x00 ∧ ends (step s) (fun t => t.status == 0x00) = true) ∧
    (let s := { running with inputs := [.reset] };
      s.status ≠ 0x00 ∧ ends (step s) (fun t => t.status == 0x00) = true) := by decide +kernel

/-- OutChangesOnlyByDecodeOrReset: a DECODE of V-D3, whole, a turn of one that stores a chunk, and a reset. -/
theorem witness_out_changes :
    (let s := { vD3 with inputs := [.regWrite 0 0x02] };
      ends (step s) (fun t => decide (t.out ≠ s.out)) = true) ∧
    (let s := { running with pos := 79, turns := [.engine] };
      ends (step s) (fun t => decide (t.out ≠ s.out)) = true) ∧
    (let s := { decodedText with inputs := [.reset] };
      ends (step s) (fun t => decide (t.out ≠ s.out)) = true) := by decide +kernel

/-- UpperBitsChangeOnlyByTheHost: an ENCODE of V-E5 steps, and a `PixWrite` changes bits 7:1. -/
theorem witness_upper_bits :
    (let s := { vE5 with inputs := [.regWrite 0 0x01] }; ends (step s) (fun t => t.err == false) = true) ∧
    (let s := { vE5 with inputs := [.pixWrite 0 0] };
      Memory.read s.pix 0 = some 3 ∧ ends (step s) (fun t => Memory.read t.pix 0 == some 0) = true) := by decide +kernel

/-- OperandsChangeOnlyByTheHost: a write of each register and of `TXT` changes it, and a write that a running command ignores. -/
theorem witness_operands :
    (let s := { vE5 with inputs := [.regWrite 0 0x01] }; ends (step s) (fun t => t.cmd == 0x01 && t.nlen == 90) = true) ∧
    (let s := { vE5 with inputs := [.regWrite 2 64] }; ends (step s) (fun t => t.nlen == 64 && t.tlen == 3) = true) ∧
    (let s := { vE5 with inputs := [.regWrite 3 1] }; ends (step s) (fun t => t.tlen == 1 && t.nlen == 90) = true) ∧
    (let s := { vE5 with inputs := [.regWrite 4 7] }; ends (step s) (fun t => t.bitidx == 7 && t.nlen == 90) = true) ∧
    (let s := { vE5 with inputs := [.txtWrite 0 7] }; ends (step s) (fun t => Memory.read t.txt 0 == some 7) = true) ∧
    (let s := { running with inputs := [.regWrite 2 64] }; ends (step s) (fun t => t.nlen == 80) = true) := by decide +kernel

/-- LsbPrimitivesObeyTheirLaws, UnpackReturnsWhatWasPacked. -/
theorem witness_primitives :
    Memory.read (fill 4 fun _ => 0xA7#8) 0 = some 0xA7 ∧ Memory.wf (fill 4 fun _ => 0xA7#8) = true ∧
    lsbRead (fill 4 fun _ => 0xA7#8) 0 = .next 1 ∧ (3 : Nat) ≠ 0 ∧
    (∃ v, Memory.read (fill 4 fun _ => 0xA7#8) 3 = some v) ∧
    (∀ j, j < [1#1, 0#1].length → ∃ v, Memory.read (fill 4 fun _ => 0xA7#8) (2 + j) = some v) :=
  ⟨by decide, by decide, rfl, by decide, ⟨0xA7, by decide⟩, fun j hj => ⟨_, read_fill 4 _ _ (by simp at hj; omega)⟩⟩

/-- RegisterReadsReturnTheRegister, RegisterWritesSetTheOperand: an ordinary register, `BITDAT`, and number 11. -/
theorem witness_registers :
    ({ idle with inputs := [.regRead 10] } : State).busy = false ∧ ({ idle with inputs := [.regRead 11] } : State).busy = false ∧
    ({ idle with inputs := [.regWrite 5 3] } : State).busy = false ∧ ({ idle with inputs := [.regWrite 6 3] } : State).busy = false := by
  decide

/-- PixWriteStoresOneElement, TxtWriteStoresOneElement: the last element and the first index outside, the widest value and
the first one too wide. -/
theorem witness_writes_in_and_out :
    (let s := { idle with inputs := [.pixWrite 89 7] }; s.busy = false ∧ 89 < s.params.pixCap) ∧
    (let s := { idle with inputs := [.pixWrite 90 7] }; s.busy = false ∧ s.params.pixCap ≤ 90) ∧
    (let s := { idle with inputs := [.txtWrite 2 0x1FFFFF] };
      s.busy = false ∧ 2 < s.params.txtCap ∧ (0x1FFFFF : CodePoint).toNat < 2 ^ s.params.cpWidth) ∧
    (let s := { idle with inputs := [.txtWrite 3 0] };
      s.busy = false ∧ s.params.txtCap ≤ 3 ∧ (0 : CodePoint).toNat < 2 ^ s.params.cpWidth) ∧
    (let s := { idle with inputs := [.txtWrite 2 0x200000] };
      s.busy = false ∧ 2 ^ s.params.cpWidth ≤ (0x200000 : CodePoint).toNat) := by decide

/-- MemoryReadsReturnTheElement: the last element of each memory. -/
theorem witness_memory_reads :
    (let s := { vE5 with inputs := [.pixRead 89] };
      s.busy = false ∧ 89 < s.params.pixCap ∧ Memory.read s.pix 89 = some (BitVec.ofNat 8 626)) ∧
    (let s := { vE5 with inputs := [.txtRead 2] }; s.busy = false ∧ 2 < s.params.txtCap ∧ Memory.read s.txt 2 = some 90) ∧
    (let s := { idle with inputs := [.outRead 2], out := [(2, 9)] };
      s.busy = false ∧ 2 < s.params.outCap ∧ Memory.read s.out 2 = some 9) := by decide +kernel

/-- MemoryReadsWithoutValueAreRefused: the first index outside each memory, and the last element, never written. -/
theorem witness_refused_reads :
    (let s := { idle with inputs := [.pixRead 90] }; s.busy = false ∧ s.params.pixCap ≤ 90) ∧
    (let s := { idle with inputs := [.txtRead 3] }; s.busy = false ∧ s.params.txtCap ≤ 3) ∧
    (let s := { idle with inputs := [.outRead 3] }; s.busy = false ∧ s.params.outCap ≤ 3) ∧
    (let s := { idle with inputs := [.pixRead 89] }; s.busy = false ∧ 89 < s.params.pixCap ∧ Memory.read s.pix 89 = none) ∧
    (let s := { idle with inputs := [.txtRead 2] }; s.busy = false ∧ 2 < s.params.txtCap ∧ Memory.read s.txt 2 = none) ∧
    (let s := { idle with inputs := [.outRead 2] }; s.busy = false ∧ 2 < s.params.outCap ∧ Memory.read s.out 2 = none) := by
  decide

/-- AcceptOpensTheBusyWindow. -/
theorem witness_accept : let s := { idle with grain := .request, inputs := [.regWrite 0 0x101] }
    s.busy = false ∧ s.grain = .request ∧ s.inputs = .regWrite 0 0x101 :: [] := by decide

/-- BusyHostWritesAreIgnored: a `CMD` write, a `PIX` write and a `TXT` write to a running command. -/
theorem witness_busy_writes :
    (let s := { running with inputs := [.regWrite 0 0x01] }; s.busy = true ∧ s.turns = .host :: [] ∧ s.inputs = .regWrite 0 0x01 :: []) ∧
    (let s := { running with inputs := [.pixWrite 0 0] }; s.busy = true ∧ s.turns = .host :: [] ∧ s.inputs = .pixWrite 0 0 :: []) ∧
    (let s := { running with inputs := [.txtWrite 0 0] }; s.busy = true ∧ s.turns = .host :: [] ∧ s.inputs = .txtWrite 0 0 :: []) := by
  decide

/-- CursorAdvancesByOne: a scheduled turn of a DECODE in its payload, and ENCODE at its start, with a failing check, and past
its last position (V-E9). -/
theorem witness_cursor :
    (let s := { running with turns := [.engine, .host] };
      s.engineMoves [.host] ∧ s.cmd = 0x02 ∧ 64 ≤ s.nlen.toNat ∧ s.checked = true ∧ ends (step s) (fun t => t.busy) = true) ∧
    (let s := { vE9 with cmd := 0x01, status := 0x01 };
      s.engineMoves [] ∧ s.cmd = 0x01 ∧ 64 ≤ s.nlen.toNat ∧ s.checked = false ∧ ends (step s) (fun t => t.busy) = true) ∧
    (let s := { vE9 with cmd := 0x01, status := 0x01, tlen := 4 };
      s.engineMoves [] ∧ s.cmd = 0x01 ∧ 64 ≤ s.nlen.toNat ∧ s.checked = false ∧ ends (step s) (fun t => !t.busy) = true) ∧
    (let s := { vE9 with cmd := 0x01, status := 0x01, checked := true, pos := 72 };
      s.engineMoves [] ∧ s.cmd = 0x01 ∧ 64 ≤ s.nlen.toNat ∧ ends (step s) (fun t => !t.busy) = true) := by
  unfold State.engineMoves
  decide +kernel

/-- EncodeWindowReachesTheAtomicResult: an accepted V-E9, and one whose buffer is too small. -/
theorem witness_encode_window :
    (let s := { vE9 with cmd := 0x01, status := 0x01, grain := .request };
      s.busy = true ∧ s.turns = [] ∧ s.checked = false ∧ s.cmd = 0x01 ∧ ends (execEncode s) (fun t => !t.err) = true) ∧
    (let s := { idle with cmd := 0x01, status := 0x01, grain := .request };
      s.busy = true ∧ s.turns = [] ∧ s.checked = false ∧ s.cmd = 0x01 ∧ ends (execEncode s) (fun t => t.err) = true) := by
  decide +kernel

/-- DecodeWindowReachesTheAtomicResult: an accepted V-D3, and one whose buffer is too small. -/
theorem witness_decode_window :
    (let s := { vD3 with cmd := 0x02, status := 0x01, grain := .request };
      s.busy = true ∧ s.turns = [] ∧ s.checked = false ∧ s.cmd = 0x02 ∧ ends (execDecode s) (fun t => !t.err) = true) ∧
    (let s := { idle with cmd := 0x02, status := 0x01, grain := .request };
      s.busy = true ∧ s.turns = [] ∧ s.checked = false ∧ s.cmd = 0x02 ∧ ends (execDecode s) (fun t => t.err) = true) := by
  decide +kernel

/-- ShortCommandsCompleteInOneTurn: a block running NOP, RDBIT (in a scheduled turn), WRBIT, the first and the last illegal word. -/
theorem witness_short :
    (let s := { vC with cmd := 0x00, status := 0x01 }; s.engineMoves [] ∧ s.cmd = 0x00) ∧
    (let s := { vC with cmd := 0x03, status := 0x01, turns := [.engine, .host] }; s.engineMoves [.host] ∧ s.cmd = 0x03) ∧
    (let s := { vC with cmd := 0x04, status := 0x01 }; s.engineMoves [] ∧ s.cmd = 0x04) ∧
    (let s := { vC with cmd := 0x05, status := 0x01 }; s.engineMoves [] ∧ 5 ≤ s.cmd.toNat) ∧
    (let s := { vC with cmd := 0xFF, status := 0x01 }; s.engineMoves [] ∧ 5 ≤ s.cmd.toNat) := by
  unfold State.engineMoves
  decide

end Sys2Proof.Tests
end

section
/-! Faults: the chained operations fault only where one of their parts does, and no part of the block does for parameters that
obey R6. -/

namespace Sys2Proof.Machine

theorem andThen_ne_fault {α β : Type} {x : Result α} {f : α → Result β} {r : Fault} (hx : x ≠ .fault r)
    (hf : ∀ a, x = .next a → f a ≠ .fault r) : andThen x f ≠ .fault r := by
  intro h
  rcases andThen_eq_fault.mp h with h | ⟨a, ha, h⟩
  · exact hx h
  · exact hf a ha h

theorem guarded_ne_fault {α : Type} {c : Result (Except FatalError α)} {s : State} {rest : α → Result State} {r : Fault}
    (hc : c ≠ .fault r) (hrest : ∀ a, c = .next (.ok a) → rest a ≠ .fault r) : guarded c s rest ≠ .fault r := by
  intro h
  rcases guarded_eq_fault.mp h with h | ⟨a, ha, h⟩
  · exact hc h
  · exact hrest a ha h

theorem decodeChecks_ne_fault (s : State) (r : Fault) : decodeChecks s ≠ .fault r := nofun

theorem bitChecks_ne_fault (s : State) (r : Fault) : bitChecks s ≠ .fault r := nofun

/-- R6, R124: with a legal `OUT_CAP` no command faults, DECODE's stores included. -/
theorem exec_ne_fault {s : State} (hcap : s.params.outCapLegal = true) (i : Instr) (r : Fault) : exec i s ≠ .fault r := by
  cases i with
  | nop => simp [exec_nop]
  | encode =>
    exact guarded_ne_fault (encodeChecks_ne_fault s r) fun _ _ => andThen_ne_fault (embed_ne_fault _ _ _ r) nofun
  | decode =>
    refine guarded_ne_fault (decodeChecks_ne_fault s r) fun _ hok => ?_
    obtain ⟨hfits, hheader⟩ := decodeChecks_eq_ok.mp hok
    refine andThen_ne_fault (readHeader_ne_fault _ r) fun n _ => andThen_ne_fault ?_ nofun
    have hcount : outCount s n ≤ s.params.outCap := outCount_le_cap hcap hfits hheader n
    exact storeChunks_ne_fault _ _ (.inr (by omega))
  | rdbit =>
    exact guarded_ne_fault (bitChecks_ne_fault s r) fun _ _ => andThen_ne_fault lsbRead_ne_fault nofun
  | wrbit =>
    exact guarded_ne_fault (bitChecks_ne_fault s r) fun _ _ => andThen_ne_fault lsbWrite_ne_fault nofun

theorem runCommand_ne_fault {s : State} (hcap : s.params.outCapLegal = true) (r : Fault) : runCommand s ≠ .fault r := by
  unfold runCommand
  split
  · exact exec_ne_fault hcap _ r
  · simp

/-- A turn of ENCODE never faults: it stores to `PIX` only, at elements that have a value (R185). -/
theorem encodeTurn_ne_fault (s : State) (r : Fault) : encodeTurn s ≠ .fault r := by
  unfold encodeTurn
  split_ifs
  · exact guarded_ne_fault (encodeChecks_ne_fault s r) nofun
  · exact andThen_ne_fault lsbWrite_ne_fault nofun
  · exact andThen_ne_fault (loadChr_ne_fault s _ r) fun _ _ => andThen_ne_fault lsbWrite_ne_fault nofun
  · simp

/-- A turn of DECODE past its checks stores only below `outCount`, which R6 keeps within `OUT` (R124, R186). -/
theorem decodeTurn_ne_fault {s : State} (hcap : s.params.outCapLegal = true)
    (hchecked : s.checked = true → 64 ≤ s.nlen.toNat ∧ s.nlen.toNat ≤ s.params.pixCap) (r : Fault) :
    decodeTurn s ≠ .fault r := by
  unfold decodeTurn
  split_ifs with hnot hpos hcount
  · exact guarded_ne_fault (decodeChecks_ne_fault s r) nofun
  · exact andThen_ne_fault lsbRead_ne_fault nofun
  · obtain ⟨hheader, hfits⟩ := hchecked (by simpa using hnot)
    have hle : outCount s s.hdr.toNat ≤ s.params.outCap := outCount_le_cap hcap hfits hheader _
    have hin : (s.pos.toNat - 64) / 8 < s.params.outCap := by omega
    exact andThen_ne_fault lsbRead_ne_fault fun _ _ => andThen_ne_fault (storeChr_ne_fault hin r) nofun
  · simp

theorem engineTurn_ne_fault {s : State} (hcap : s.params.outCapLegal = true)
    (hchecked : s.checked = true → 64 ≤ s.nlen.toNat ∧ s.nlen.toNat ≤ s.params.pixCap) (r : Fault) :
    engineTurn s ≠ .fault r := by
  by_cases hencode : s.cmd = 0x01
  · rw [engineTurn_encode hencode]
    exact encodeTurn_ne_fault s r
  by_cases hdecode : s.cmd = 0x02
  · rw [engineTurn_decode hdecode]
    exact decodeTurn_ne_fault hcap hchecked r
  · rw [engineTurn_short hencode hdecode]
    exact runCommand_ne_fault hcap r

theorem hostEvent_ne_fault {s : State} (hcap : s.params.outCapLegal = true) (e : HostEvent) (r : Fault) :
    hostEvent e s ≠ .fault r := by
  cases e with
  | regWrite n v =>
    simp only [hostEvent, issue]
    split_ifs
    · split
      · exact runCommand_ne_fault (s := accept (v.setWidth 8) s) hcap r
      · simp
    · simp
  | txtWrite a v =>
    simp only [hostEvent, txtWrite]
    split_ifs <;> simp
  | pixRead a => exact andThen_ne_fault portRead_ne_fault nofun
  | txtRead a => exact andThen_ne_fault portRead_ne_fault nofun
  | outRead a => exact andThen_ne_fault portRead_ne_fault nofun
  | regRead n => simp [hostEvent]
  | pixWrite a v => simp [hostEvent]
  | reset => simp [hostEvent]

theorem busyHostEvent_ne_fault (s : State) (e : HostEvent) (r : Fault) : busyHostEvent e s ≠ .fault r := by
  cases e with
  | regRead n =>
    simp only [busyHostEvent]
    split_ifs <;> simp
  | _ => simp [busyHostEvent]

theorem State.Inv.outCapLegal {s : State} (h : s.Inv) : s.params.outCapLegal = true := by
  have hlegal := h.params
  simp only [Params.legal, Bool.and_eq_true] at hlegal
  obtain ⟨⟨-, hout⟩, -⟩ := hlegal
  exact hout

theorem State.Inv.headerFits_of_checked {s : State} (h : s.Inv) (hc : s.checked = true) :
    64 ≤ s.nlen.toNat ∧ s.nlen.toNat ≤ s.params.pixCap := by
  obtain ⟨-, -, hfits⟩ := h.running hc
  exact hfits

/-- Settles O33: of the kinds of step only those that run DECODE store to `OUT`, and the invariant bounds their stores. -/
theorem noStepFaults : Obligations.NoStepFaults := by
  intro s f hinv
  have hcap := hinv.outCapLegal
  have hchecked := hinv.headerFits_of_checked
  rcases step_cases s with ⟨-, -, h⟩ | ⟨-, e, es, -, h⟩ | ⟨-, -, h⟩ | ⟨-, ts, -, h⟩ | ⟨-, ts, -, -, h⟩ |
    ⟨-, ts, e, es, -, -, h⟩ <;> rw [h]
  · simp
  · exact hostEvent_ne_fault (s := { s with inputs := es }) hcap e f
  · exact engineTurn_ne_fault hcap hchecked f
  · exact engineTurn_ne_fault (s := { s with turns := ts }) hcap hchecked f
  · simp
  · exact busyHostEvent_ne_fault _ e f

end Sys2Proof.Machine
end

section
/-! `OUT`: which operations leave it as it is (R30, R37). -/

namespace Sys2Proof.Machine

/-- R37: every command but DECODE leaves `OUT` as it is. -/
theorem exec_out {s t : State} {i : Instr} (h : exec i s = .next t) (hi : i ≠ .decode) : t.out = s.out := by
  cases i with
  | nop => cases h; rfl
  | encode => rcases exec_encode_eq_next.mp h with ⟨e, -, rfl⟩ | ⟨cps, pix', -, -, rfl⟩ <;> rfl
  | decode => exact absurd rfl hi
  | rdbit => rcases exec_rdbit_eq_next.mp h with ⟨e, -, rfl⟩ | ⟨-, -, v, -, rfl⟩ <;> rfl
  | wrbit => rcases exec_wrbit_eq_next.mp h with ⟨e, -, rfl⟩ | ⟨-, -, pix', -, rfl⟩ <;> rfl

theorem runCommand_out {s t : State} (h : runCommand s = .next t) (hcmd : s.cmd ≠ 0x02) : t.out = s.out := by
  unfold runCommand at h
  split at h
  case h_1 i hi =>
    refine exec_out h fun hdec => hcmd ?_
    subst hdec
    exact (decodeCmd_eq_command_iff _ _).mp hi
  case h_2 => cases h; rfl

theorem encodeTurn_out {s t : State} (h : encodeTurn s = .next t) : t.out = s.out := by
  rcases encodeTurn_cases h with ⟨-, e, -, rfl⟩ | ⟨-, cps, -, rfl⟩ | ⟨-, -, m, -, rfl⟩ | ⟨-, -, -, c, m, -, -, rfl⟩ |
    ⟨-, -, rfl⟩ <;> rfl

theorem engineTurn_out {s t : State} (h : engineTurn s = .next t) (hcmd : s.cmd ≠ 0x02) : t.out = s.out := by
  by_cases hencode : s.cmd = 0x01
  · rw [engineTurn_encode hencode] at h
    exact encodeTurn_out h
  · rw [engineTurn_short hencode hcmd] at h
    exact runCommand_out h hcmd

@[simp] theorem regWrite_out (s : State) (r : Nat) (v : Word) : (regWrite s r v).out = s.out := by
  rw [regWrite_frame]

@[simp] theorem pixWrite_out (a : Nat) (v : Byte) (s : State) : (pixWrite a v s).out = s.out := by
  unfold pixWrite
  split_ifs <;> rfl

/-- A host event of an idle block that changes `OUT` is a reset, or a `CMD` write that runs DECODE at once. -/
theorem hostEvent_out {s t : State} {e : HostEvent} (h : hostEvent e s = .next t) (hout : t.out ≠ s.out) :
    e = .reset ∨ (s.grain = .command ∧ ∃ v : Word, e = .regWrite 0 v ∧ v.extractLsb' 0 8 = 0x02) := by
  rcases hostEvent_cases h with ⟨he, -⟩ | ⟨v, he, ⟨hgrain, hrun⟩ | ⟨-, rfl⟩⟩ | ⟨r, v, -, -, rfl⟩ | ⟨a, v, -, rfl⟩ |
    ⟨a, v, -, -, rfl⟩ | ⟨r, rfl⟩
  · exact .inl he
  · refine .inr ⟨hgrain, v, he, ?_⟩
    by_contra hv
    have hcmd : (accept (v.setWidth 8) s).cmd ≠ 0x02 := by simpa [setWidth_eq_low] using hv
    exact hout (runCommand_out (s := accept (v.setWidth 8) s) hrun hcmd)
  · exact absurd rfl hout
  · exact absurd (regWrite_out s r v) hout
  · exact absurd (pixWrite_out a v s) hout
  · exact absurd (by split_ifs <;> rfl) hout
  · exact absurd rfl hout

theorem busyHostEvent_out {s t : State} {e : HostEvent} (h : busyHostEvent e s = .next t) (hout : t.out ≠ s.out) :
    e = .reset := by
  rcases busyHostEvent_cases h with ⟨he, -⟩ | rfl | ⟨-, rfl⟩
  · exact he
  · exact absurd rfl hout
  · exact absurd rfl hout

/-- The engine's turn that changes `OUT` is a turn of DECODE. -/
theorem runsDecode_of_engineTurn {s t : State} {ts : List Agent} (hm : s.engineMoves ts)
    (h : engineTurn { s with turns := ts } = .next t) (hout : t.out ≠ s.out) : s.runsDecode := by
  by_contra hnot
  exact hout (engineTurn_out (s := { s with turns := ts }) h fun hcmd => hnot (.inr ⟨hcmd, ts, hm⟩))

/-- Settles O37, by the kinds of step: only a host event of an idle block, a turn of the engine and a host event of the busy
window can change `OUT`, each by its lemma above. -/
theorem outChangesOnlyByDecodeOrReset : Obligations.OutChangesOnlyByDecodeOrReset := by
  intro s t hstep hout
  rcases step_cases s with ⟨-, -, h⟩ | ⟨hb, e, es, hi, h⟩ | ⟨hb, ht, h⟩ | ⟨hb, ts, ht, h⟩ | ⟨-, ts, -, -, h⟩ |
    ⟨-, ts, e, es, ht, hi, h⟩
  · rw [h] at hstep
    cases hstep
    exact absurd rfl hout
  · have htakes : s.takes e := takes_of_idle hb hi
    rcases hostEvent_out (s := { s with inputs := es }) (h ▸ hstep) hout with rfl | ⟨hgrain, v, rfl, hv⟩
    · exact .inr htakes
    · exact .inl (.inl ⟨hb, hgrain, v, htakes, hv⟩)
  · have hm : s.engineMoves [] := ⟨hb, .inl ⟨ht, rfl⟩⟩
    exact .inl (runsDecode_of_engineTurn hm (step_engineMoves hm ▸ hstep) hout)
  · have hm : s.engineMoves ts := ⟨hb, .inr ht⟩
    exact .inl (runsDecode_of_engineTurn hm (step_engineMoves hm ▸ hstep) hout)
  · rw [h] at hstep
    cases hstep
    exact absurd rfl hout
  · obtain rfl := busyHostEvent_out (s := { s with turns := ts, inputs := es }) (h ▸ hstep) hout
    exact .inr (takes_of_turn ht hi)

end Sys2Proof.Machine
end

section
/-! The host's accesses to the memories of an idle block: what each event answers, inside and outside the capacity (R10, R56). -/

namespace Sys2Proof.Machine

theorem hostEvent_pixWrite_of_lt {s : State} {a : Nat} (v : Byte) (ha : a < s.params.pixCap) :
    hostEvent (.pixWrite a v) s = .next { s with pix := Memory.write s.pix a v } := by
  simp [hostEvent, pixWrite, ha]

theorem hostEvent_pixWrite_of_le {s : State} {a : Nat} (v : Byte) (ha : s.params.pixCap ≤ a) :
    hostEvent (.pixWrite a v) s = .next s := by
  simp [hostEvent, pixWrite, not_lt.mpr ha]

theorem hostEvent_txtWrite_of_lt {s : State} {a : Nat} {v : CodePoint} (hv : v.toNat < 2 ^ s.params.cpWidth)
    (ha : a < s.params.txtCap) :
    hostEvent (.txtWrite a v) s = .next { s with txt := Memory.write s.txt a v } := by
  simp [hostEvent, txtWrite, fitsWidth, hv, ha]

theorem hostEvent_txtWrite_of_le {s : State} {a : Nat} {v : CodePoint} (hv : v.toNat < 2 ^ s.params.cpWidth)
    (ha : s.params.txtCap ≤ a) : hostEvent (.txtWrite a v) s = .next s := by
  simp [hostEvent, txtWrite, fitsWidth, hv, not_lt.mpr ha]

theorem hostEvent_txtWrite_of_wide {s : State} (a : Nat) {v : CodePoint} (hv : 2 ^ s.params.cpWidth ≤ v.toNat) :
    hostEvent (.txtWrite a v) s = .refused (.txtValueTooWide a v) := by
  simp [hostEvent, txtWrite, fitsWidth, not_lt.mpr hv]

theorem hostEvent_pixRead_of_some {s : State} {a : Nat} {v : Byte} (ha : a < s.params.pixCap)
    (hv : Memory.read s.pix a = some v) : hostEvent (.pixRead a) s = .next (reply (.pix a v) s) := by
  simp [hostEvent, portRead_eq_next.mpr ⟨ha, hv⟩]

theorem hostEvent_txtRead_of_some {s : State} {a : Nat} {v : CodePoint} (ha : a < s.params.txtCap)
    (hv : Memory.read s.txt a = some v) : hostEvent (.txtRead a) s = .next (reply (.txt a v) s) := by
  simp [hostEvent, portRead_eq_next.mpr ⟨ha, hv⟩]

theorem hostEvent_outRead_of_some {s : State} {a : Nat} {v : Byte} (ha : a < s.params.outCap)
    (hv : Memory.read s.out a = some v) : hostEvent (.outRead a) s = .next (reply (.out a v) s) := by
  simp [hostEvent, portRead_eq_next.mpr ⟨ha, hv⟩]

/-- Settles O47: the step is the event's one memory write, or nothing. -/
theorem pixWriteStoresOneElement : Obligations.PixWriteStoresOneElement := by
  intro s a v es hb hi
  rw [step_event hb hi]
  refine ⟨fun ha => ⟨_, hostEvent_pixWrite_of_lt v ha, ?_, fun b hne => ?_, rfl⟩,
    hostEvent_pixWrite_of_le (s := { s with inputs := es }) v⟩
  · exact Memory.read_write_self ..
  · exact Memory.read_write_of_ne _ _ _ _ hne

/-- Settles O48: the step is the event's one memory write, nothing, or the refusal of log 12. -/
theorem txtWriteStoresOneElement : Obligations.TxtWriteStoresOneElement := by
  intro s a v es hb hi
  rw [step_event hb hi]
  refine ⟨fun hv ha => ⟨_, hostEvent_txtWrite_of_lt hv ha, ?_, fun b hne => ?_, rfl⟩,
    hostEvent_txtWrite_of_le (s := { s with inputs := es }), hostEvent_txtWrite_of_wide (s := { s with inputs := es }) a⟩
  · exact Memory.read_write_self ..
  · exact Memory.read_write_of_ne _ _ _ _ hne

/-- Settles O49: the step is the event's reply. -/
theorem memoryReadsReturnTheElement : Obligations.MemoryReadsReturnTheElement := by
  intro s a es hb
  refine ⟨fun v hi ha hv => ?_, fun v hi ha hv => ?_, fun v hi ha hv => ?_⟩ <;> rw [step_event hb hi]
  · exact hostEvent_pixRead_of_some ha hv
  · exact hostEvent_txtRead_of_some ha hv
  · exact hostEvent_outRead_of_some ha hv

end Sys2Proof.Machine
end

section
/-! One step, sorted by what it can change: a turn of the engine, a host event of an idle block, a reset of a running command,
or nothing but the model's own queues. -/

namespace Sys2Proof.Machine

/-- Every step that answers runs the engine, performs a host event of an idle block, aborts a running command by a reset, or
touches only the turns, the pending events and the replies. -/
theorem step_effect {s t : State} (h : step s = .next t) :
    (∃ ts, s.engineMoves ts ∧ engineTurn { s with turns := ts } = .next t) ∨
    (s.busy = false ∧ ∃ e es, s.inputs = e :: es ∧ hostEvent e { s with inputs := es } = .next t) ∨
    (s.takes .reset ∧ ∃ ts es, t = applyReset { s with turns := ts, inputs := es }) ∨
    (∃ ts es rs, t = { s with turns := ts, inputs := es, replies := rs }) := by
  rcases step_cases s with ⟨-, -, hs⟩ | ⟨hb, e, es, hi, hs⟩ | ⟨hb, ht, hs⟩ | ⟨hb, ts, ht, hs⟩ | ⟨-, ts, -, -, hs⟩ |
    ⟨-, ts, e, es, ht, hi, hs⟩ <;> rw [hs] at h
  · cases h
    exact .inr (.inr (.inr ⟨s.turns, s.inputs, s.replies, rfl⟩))
  · exact .inr (.inl ⟨hb, e, es, hi, h⟩)
  · have hm : s.engineMoves [] := ⟨hb, .inl ⟨ht, rfl⟩⟩
    exact .inl ⟨[], hm, by rw [← step_engineMoves hm, hs, h]⟩
  · exact .inl ⟨ts, ⟨hb, .inr ht⟩, h⟩
  · cases h
    exact .inr (.inr (.inr ⟨ts, s.inputs, s.replies, rfl⟩))
  · rcases busyHostEvent_cases h with ⟨rfl, rfl⟩ | rfl | ⟨-, rfl⟩
    · exact .inr (.inr (.inl ⟨takes_of_turn ht hi, ts, es, rfl⟩))
    · exact .inr (.inr (.inr ⟨ts, es, s.replies, rfl⟩))
    · exact .inr (.inr (.inr ⟨ts, es, _, rfl⟩))

end Sys2Proof.Machine
end

section
/-! The invariant (R36) under each update of the state: what a memory access, a completion, a cursor move or a host event must
bring to keep it. -/

namespace Sys2Proof.Machine

theorem Memory.isSome_read_write {α : Type} {m : Memory α} {a k : Nat} {v : α} (h : k = a ∨ (Memory.read m k).isSome = true) :
    (Memory.read (Memory.write m a v) k).isSome = true := by
  rw [Memory.read_write]
  split_ifs with hk
  · rfl
  · exact h.resolve_left hk

theorem errorStatus_mem_legalStatus (e : ErrCode) : errorStatus e ∈ legalStatus := by
  cases e <;> decide

theorem okStatus_mem_legalStatus (w : Bool) : okStatus w ∈ legalStatus := by
  cases w <;> decide

/-- After reset no memory element has a value, `STATUS` is 0, and nothing runs (R171, R172). -/
theorem resetWith_inv {p : Params} (hp : p.legal = true) : (State.resetWith p).Inv where
  params := hp
  pixWf := rfl
  pixWithin := rfl
  txtWf := rfl
  txtWithin := rfl
  outWf := rfl
  outWithin := rfl
  txtWidth := rfl
  status := (by decide : (0 : Byte) ∈ legalStatus)
  context := fun _ _ => ⟨rfl, rfl, rfl⟩
  warning := fun hw => absurd hw (by decide : ¬ (0 : Byte).getLsbD 3 = true)
  running := nofun
  stored := nofun
  decoded := fun _ hk => absurd hk (Nat.not_lt_zero _)

namespace State.Inv

variable {s : State}

/-- An idle block has no command past its checks. -/
theorem unchecked_of_idle (h : s.Inv) (hb : s.busy = false) : s.checked = false := by
  by_contra hc
  obtain ⟨hbusy, -⟩ := h.running (by simpa using hc)
  simp [hb] at hbusy

/-- A command past its checks is ENCODE or DECODE. -/
theorem unchecked_of_short (h : s.Inv) (h1 : s.cmd ≠ 0x01) (h2 : s.cmd ≠ 0x02) : s.checked = false := by
  by_contra hc
  obtain ⟨-, hcmd, -⟩ := h.running (by simpa using hc)
  exact hcmd.elim h1 h2

/-- The invariant says nothing of the turns, the pending events and the replies. -/
theorem with_queues (h : s.Inv) (ts : List Agent) (es : List HostEvent) (rs : List Reply) :
    ({ s with turns := ts, inputs := es, replies := rs } : State).Inv := { h with }

theorem with_operands (h : s.Inv) (hc : s.checked = false) (nlen tlen bitidx : Word) (bitdat : Bit) :
    ({ s with nlen := nlen, tlen := tlen, bitidx := bitidx, bitdat := bitdat } : State).Inv :=
  { h with running := fun hc' => by simp [hc] at hc' }

theorem with_binsize (h : s.Inv) (n : Word) : ({ s with binsize := n } : State).Inv := { h with }

theorem with_pix (h : s.Inv) {pix' : Memory Byte}
    (hk : (Memory.wf s.pix = true → Memory.wf pix' = true) ∧
      (Memory.within s.params.pixCap s.pix = true → Memory.within s.params.pixCap pix' = true)) :
    ({ s with pix := pix' } : State).Inv :=
  { h with pixWf := hk.1 h.pixWf, pixWithin := hk.2 h.pixWithin }

theorem with_txt_write (h : s.Inv) {a : Nat} {v : CodePoint} (ha : a < s.params.txtCap)
    (hv : fitsWidth s.params.cpWidth v = true) : ({ s with txt := Memory.write s.txt a v } : State).Inv where
  __ := h
  txtWf := Memory.wf_write _ _ _ h.txtWf
  txtWithin := Memory.within_write _ _ _ _ ha h.txtWithin
  txtWidth := by
    refine List.all_eq_true.mpr fun c hc => ?_
    rcases Memory.mem_write _ _ _ _ hc with rfl | hc
    · exact hv
    · exact List.all_eq_true.mp h.txtWidth c hc

/-- A new decoded text needs a canonical `OUT` that holds it. -/
theorem with_decoded (h : s.Inv) (hc : s.checked = false) {out' : Memory Byte} {n : Word}
    (hk : (Memory.wf s.out = true → Memory.wf out' = true) ∧
      (Memory.within s.params.outCap s.out = true → Memory.within s.params.outCap out' = true))
    (hd : ∀ k, k < n.toNat → (Memory.read out' k).isSome = true) :
    ({ s with out := out', outlen := n } : State).Inv :=
  { h with
    outWf := hk.1 h.outWf
    outWithin := hk.2 h.outWithin
    stored := fun hc' => by simp [hc] at hc'
    decoded := hd }

/-- The hidden values are free while no command is past its checks. -/
theorem with_hidden (h : s.Inv) (hc : s.checked = false) (pos hdr : Word) (chr : Byte) (n : Nat) :
    ({ s with pos := pos, hdr := hdr, chr := chr, fresh := n } : State).Inv :=
  { h with stored := fun hc' => by simp [hc] at hc' }

theorem with_unchecked (h : s.Inv) : ({ s with checked := false } : State).Inv :=
  { h with running := nofun, stored := nofun }

theorem accepted (h : s.Inv) (c : Byte) : (accept c s).Inv :=
  { h with
    status := (by decide : busyStatus ∈ legalStatus)
    context := fun hb => by simp at hb
    warning := fun hw => by simp [State.warnTrunc, busyStatus] at hw
    running := nofun
    stored := nofun }

theorem raised (h : s.Inv) (hc : s.checked = false) (e : FatalError) : (raise e s).Inv :=
  { h with
    status := errorStatus_mem_legalStatus e.code
    context := fun _ he => by simp at he
    warning := fun hw => by simp at hw
    running := fun hc' => by simp [hc] at hc' }

theorem completed (h : s.Inv) (hc : s.checked = false) {w : Bool} (hw : w = true → s.cmd = 0x01) :
    (completeOk w s).Inv :=
  { h with
    status := okStatus_mem_legalStatus w
    context := fun _ _ => ⟨rfl, rfl, rfl⟩
    warning := fun hw' => ⟨completeOk_err w s, hw (by simpa using hw')⟩
    running := fun hc' => by simp [hc] at hc' }

theorem after_reset (h : s.Inv) : (applyReset s).Inv :=
  { resetWith_inv h.params with stored := nofun }

end State.Inv

/-- Settles O31. -/
theorem resetSatisfiesTheInvariant : Obligations.ResetSatisfiesTheInvariant :=
  ⟨fun _ => resetWith_inv, resetWith_inv (by decide)⟩

end Sys2Proof.Machine
end

section
/-! Every step keeps the invariant (R36): a command run whole, one turn of the micro-sequences of R185 and R186, a host event. -/

namespace Sys2Proof.Machine

/-- The size ENCODE writes to `BINSIZE` does not wrap (R103). -/
theorem ofNat_encodeSize_toNat (s : State) : (BitVec.ofNat 64 (encodeSize s)).toNat = encodeSize s :=
  Nat.mod_eq_of_lt (encodeSize_lt s)

/-- The count DECODE writes to `OUTLEN` does not wrap. -/
theorem ofNat_outCount_toNat (s : State) (n : Nat) : (BitVec.ofNat 64 (outCount s n)).toNat = outCount s n :=
  Nat.mod_eq_of_lt (outCount_lt s n)

/-- The chunks DECODE stores are the decoded text (R120, R124). -/
theorem storeChunks_isSome {s : State} {n k : Nat} {out' : Memory Byte}
    (h : storeChunks s.params.outCap s.pix (outCount s n) 0 s.out = .next out')
    (hk : k < (BitVec.ofNat 64 (outCount s n)).toNat) : (Memory.read out' k).isSome = true := by
  rw [ofNat_outCount_toNat] at hk
  obtain ⟨c, -, hc, -⟩ := (storeChunks_read h k).1 (Nat.zero_le k) (by omega)
  simp [hc]

theorem exec_keeps_inv {s t : State} {i : Instr} (h : s.Inv) (hc : s.checked = false) (hcmd : s.cmd = encode i)
    (hexec : exec i s = .next t) : t.Inv := by
  cases i with
  | nop =>
    cases hexec
    exact h.completed hc nofun
  | encode =>
    rcases exec_encode_eq_next.mp hexec with ⟨e, -, rfl⟩ | ⟨cps, pix', -, hembed, rfl⟩
    · exact h.raised hc e
    · exact (((h.with_pix (embed_keeps hembed)).with_binsize _).with_hidden hc _ _ _ _).completed hc fun _ => hcmd
  | decode =>
    rcases exec_decode_eq_next.mp hexec with ⟨e, -, rfl⟩ | ⟨n, out', -, -, -, hstore, rfl⟩
    · exact h.raised hc e
    · have hd := h.with_decoded hc (storeChunks_keeps hstore) fun k => storeChunks_isSome hstore
      exact ((hd.with_binsize (BitVec.ofNat 64 n)).with_hidden hc _ _ _ _).completed hc nofun
  | rdbit =>
    rcases exec_rdbit_eq_next.mp hexec with ⟨e, -, rfl⟩ | ⟨-, -, v, -, rfl⟩
    · exact h.raised hc e
    · exact (h.with_operands hc s.nlen s.tlen s.bitidx (lsbOf v)).completed hc nofun
  | wrbit =>
    rcases exec_wrbit_eq_next.mp hexec with ⟨e, -, rfl⟩ | ⟨-, -, pix', hwrite, rfl⟩
    · exact h.raised hc e
    · exact (h.with_pix (lsbWrite_keeps hwrite)).completed hc nofun

theorem runCommand_keeps_inv {s t : State} (h : s.Inv) (hc : s.checked = false) (hrun : runCommand s = .next t) : t.Inv := by
  unfold runCommand at hrun
  split at hrun
  case h_1 i hi => exact exec_keeps_inv h hc ((decodeCmd_eq_command_iff _ _).mp hi) hrun
  case h_2 => cases hrun; exact h.raised hc _

/-! ### The micro-sequences -/

/-- A command that passes its checks starts with no chunk passed, since `POS` is 0. -/
theorem State.Inv.start {s : State} (h : s.Inv) (hb : s.busy = true) (hcmd : s.cmd = 0x01 ∨ s.cmd = 0x02)
    (hfits : s.nlen.toNat ≤ s.params.pixCap) (hheader : 64 ≤ s.nlen.toNat) (hdr : Word) :
    ({ s with hdr := hdr, pos := 0, checked := true } : State).Inv :=
  { h with
    running := fun _ => ⟨hb, hcmd, hheader, hfits⟩
    stored := fun _ _ k hk => absurd hk (by simp) }

/-- ENCODE's cursor is not bound to `OUT`. -/
theorem State.Inv.with_cursor_of_encode {s : State} (h : s.Inv) (hcmd : s.cmd = 0x01) (pos hdr : Word) (chr : Byte) :
    ({ s with pos := pos, hdr := hdr, chr := chr } : State).Inv :=
  { h with stored := fun _ hcmd' => absurd (hcmd.symm.trans hcmd') (by decide) }

/-- ENCODE's size leaves its positions inside the buffer (R102, R104). -/
theorem header_add_encodeSize_le {s : State} (h : 64 ≤ s.nlen.toNat) : 64 + encodeSize s ≤ s.nlen.toNat := by
  have := encodeSize_le_avail s
  omega

/-- DECODE's chunks lie inside the buffer (R124, R125). -/
theorem header_add_chunks_le {s : State} (h : 64 ≤ s.nlen.toNat) (n : Nat) : 64 + 8 * outCount s n ≤ s.nlen.toNat := by
  have := outCount_le_chunks s n
  omega

/-- A position below `NLEN` has a successor that does not wrap. -/
theorem pos_succ_toNat_of_lt_nlen {s : State} (h : s.pos.toNat < s.nlen.toNat) : (s.pos + 1).toNat = s.pos.toNat + 1 :=
  pos_succ_toNat h s.nlen.isLt

/-- `OUT` after a payload bit of DECODE: a canonical memory with every element it had, and the chunk that the bit ends (R186). -/
theorem storeChr_keeps {s : State} {q : Nat} {c : Byte} {o : Memory Byte} (h : storeChr s q c = .next o) :
    (Memory.wf s.out = true → Memory.wf o = true) ∧
    (Memory.within s.params.outCap s.out = true → Memory.within s.params.outCap o = true) ∧
    (∀ k, 8 * k + 7 = q ∨ (Memory.read s.out k).isSome = true → (Memory.read o k).isSome = true) := by
  rcases storeChr_eq_next.mp h with ⟨hq, hcap, rfl⟩ | ⟨hq, rfl⟩
  · exact ⟨Memory.wf_write _ _ _, Memory.within_write _ _ _ _ hcap, fun k hk =>
      Memory.isSome_read_write (hk.imp_left fun hk => by omega)⟩
  · exact ⟨id, id, fun k hk => hk.resolve_left (by omega)⟩

/-- A header bit of DECODE passes no chunk. -/
theorem State.Inv.decode_header_bit {s : State} (h : s.Inv) (hpos : s.pos.toNat < 64) (hdr : Word) :
    ({ s with hdr := hdr, pos := s.pos + 1 } : State).Inv := by
  have hsucc : (s.pos + 1).toNat = s.pos.toNat + 1 := pos_succ_toNat hpos (by decide)
  exact { h with stored := fun _ _ k (hk : _ ≤ (s.pos + 1).toNat) => absurd hk (by omega) }

/-- A payload bit of DECODE stores the chunk it ends. -/
theorem State.Inv.decode_payload_bit {s : State} (h : s.Inv) (hc : s.checked = true) (hcmd : s.cmd = 0x02)
    (hheader : 64 ≤ s.pos.toNat) (hpos : s.pos.toNat < s.nlen.toNat) {c : Byte} {o : Memory Byte}
    (hstore : storeChr s (s.pos.toNat - 64) c = .next o) :
    ({ s with out := o, chr := c, pos := s.pos + 1 } : State).Inv := by
  have hsucc := pos_succ_toNat_of_lt_nlen hpos
  obtain ⟨hwf, hwithin, hsome⟩ := storeChr_keeps hstore
  refine { h with outWf := hwf h.outWf, outWithin := hwithin h.outWithin, stored := fun _ _ k hk => hsome k ?_,
                  decoded := fun k hk => hsome k (.inr (h.decoded k hk)) }
  rcases Nat.lt_or_ge s.pos.toNat (64 + 8 * k + 8) with hnew | hold
  · have : 64 + 8 * k + 8 ≤ s.pos.toNat + 1 := hsucc ▸ hk
    exact .inl (by omega)
  · exact .inr (h.stored hc hcmd k hold)

/-- DECODE completes when it has passed all its chunks, so the text it announces is in `OUT`. -/
theorem State.Inv.decode_completion {s : State} (h : s.Inv) (hc : s.checked = true) (hcmd : s.cmd = 0x02)
    (hpos : 64 + 8 * outCount s s.hdr.toNat ≤ s.pos.toNat) :
    (completeOk false { s with
      binsize := s.hdr, outlen := BitVec.ofNat 64 (outCount s s.hdr.toNat), checked := false }).Inv := by
  have hd := (h.with_unchecked.with_binsize s.hdr).with_decoded rfl (out' := s.out)
    (n := BitVec.ofNat 64 (outCount s s.hdr.toNat)) ⟨id, id⟩ fun k hk => by
      rw [ofNat_outCount_toNat] at hk
      exact h.stored hc hcmd k (by omega)
  exact hd.completed rfl nofun

theorem encodeTurn_keeps_inv {s t : State} (h : s.Inv) (hb : s.busy = true) (hcmd : s.cmd = 0x01)
    (hturn : encodeTurn s = .next t) : t.Inv := by
  rcases encodeTurn_cases hturn with ⟨hc, e, -, rfl⟩ | ⟨-, cps, hok, rfl⟩ | ⟨-, -, m, hwrite, rfl⟩ |
    ⟨-, -, -, c, m, -, hwrite, rfl⟩ | ⟨-, -, rfl⟩
  · exact h.raised hc e
  · obtain ⟨hfits, -, hheader, -⟩ := encodeChecks_eq_ok.mp hok
    exact h.start hb (.inl hcmd) hfits hheader _
  · exact (h.with_pix (lsbWrite_keeps hwrite)).with_cursor_of_encode hcmd _ _ s.chr
  · exact (h.with_pix (lsbWrite_keeps hwrite)).with_cursor_of_encode hcmd _ s.hdr _
  · exact (h.with_unchecked.with_binsize _).completed rfl fun _ => hcmd

theorem decodeTurn_keeps_inv {s t : State} (h : s.Inv) (hb : s.busy = true) (hcmd : s.cmd = 0x02)
    (hturn : decodeTurn s = .next t) : t.Inv := by
  rcases decodeTurn_cases hturn with ⟨hc, e, -, rfl⟩ | ⟨-, hok, rfl⟩ | ⟨-, hpos, b, -, rfl⟩ |
    ⟨hc, hheader, hpos, b, c, o, -, -, hstore, rfl⟩ | ⟨hc, hpos, rfl⟩
  · exact h.raised hc e
  · obtain ⟨hfits, hheader⟩ := decodeChecks_eq_ok.mp hok
    exact h.start hb (.inr hcmd) hfits hheader 0
  · exact h.decode_header_bit hpos _
  · obtain ⟨hnlen, -⟩ := h.headerFits_of_checked hc
    exact h.decode_payload_bit hc hcmd hheader (hpos.trans_le (header_add_chunks_le hnlen _)) hstore
  · exact h.decode_completion hc hcmd hpos

theorem engineTurn_keeps_inv {s t : State} (h : s.Inv) (hb : s.busy = true) (hturn : engineTurn s = .next t) : t.Inv := by
  by_cases hencode : s.cmd = 0x01
  · exact encodeTurn_keeps_inv h hb hencode (engineTurn_encode hencode ▸ hturn)
  by_cases hdecode : s.cmd = 0x02
  · exact decodeTurn_keeps_inv h hb hdecode (engineTurn_decode hdecode ▸ hturn)
  · exact runCommand_keeps_inv h (h.unchecked_of_short hencode hdecode) (engineTurn_short hencode hdecode ▸ hturn)

/-! ### Host events -/

theorem hostEvent_keeps_inv {s t : State} {e : HostEvent} (h : s.Inv) (hb : s.busy = false)
    (hevent : hostEvent e s = .next t) : t.Inv := by
  have hc := h.unchecked_of_idle hb
  rcases hostEvent_cases hevent with ⟨-, rfl⟩ | ⟨v, -, ⟨-, hrun⟩ | ⟨-, rfl⟩⟩ | ⟨r, v, -, -, rfl⟩ | ⟨a, v, -, rfl⟩ |
    ⟨a, v, -, hv, rfl⟩ | ⟨r, rfl⟩
  · exact h.after_reset
  · exact runCommand_keeps_inv (h.accepted (v.setWidth 8)) rfl hrun
  · exact h.accepted _
  · rw [regWrite_frame]
    exact h.with_operands hc _ _ _ _
  · have hk := pixWrite_keeps (s := s) a v
    unfold pixWrite at hk ⊢
    split_ifs with ha
    · rw [if_pos ha] at hk
      exact h.with_pix hk
    · exact h
  · split_ifs with ha
    · exact h.with_txt_write ha hv
    · exact h
  · exact h.with_queues s.turns s.inputs _

/-- Settles O32, by what the step does: a turn of the engine, a host event, a reset, or a change of the model's queues. -/
theorem stepKeepsTheInvariant : Obligations.StepKeepsTheInvariant := by
  intro s t h hstep
  rcases step_effect hstep with ⟨ts, ⟨hb, -⟩, hturn⟩ | ⟨hb, e, es, -, hevent⟩ | ⟨-, ts, es, rfl⟩ | ⟨ts, es, rs, rfl⟩
  · exact engineTurn_keeps_inv (h.with_queues ts s.inputs s.replies) hb hturn
  · exact hostEvent_keeps_inv (h.with_queues s.turns es s.replies) hb hevent
  · exact (h.with_queues ts es s.replies).after_reset
  · exact h.with_queues ts es rs

end Sys2Proof.Machine
end

section
/-! The frame of each command: the fields it may write on any of its paths (R37); all others stay. -/

namespace Sys2Proof.Machine

variable {s t : State}

theorem exec_nop_frame (h : exec .nop s = .next t) :
    t = { s with status := t.status, errinfo0 := t.errinfo0, errinfo1 := t.errinfo1, errinfo2 := t.errinfo2 } := by
  cases h
  rfl

theorem exec_encode_frame (h : exec .encode s = .next t) :
    t = { s with
      pix := t.pix, binsize := t.binsize
      status := t.status, errinfo0 := t.errinfo0, errinfo1 := t.errinfo1, errinfo2 := t.errinfo2
      pos := t.pos, hdr := t.hdr, chr := t.chr, fresh := t.fresh } := by
  rcases exec_encode_eq_next.mp h with ⟨e, -, rfl⟩ | ⟨cps, pix', -, -, rfl⟩ <;> rfl

theorem exec_decode_frame (h : exec .decode s = .next t) :
    t = { s with
      out := t.out, outlen := t.outlen, binsize := t.binsize
      status := t.status, errinfo0 := t.errinfo0, errinfo1 := t.errinfo1, errinfo2 := t.errinfo2
      pos := t.pos, hdr := t.hdr, chr := t.chr, fresh := t.fresh } := by
  rcases exec_decode_eq_next.mp h with ⟨e, -, rfl⟩ | ⟨n, o, -, -, -, -, rfl⟩ <;> rfl

theorem exec_rdbit_frame (h : exec .rdbit s = .next t) :
    t = { s with
      bitdat := t.bitdat
      status := t.status, errinfo0 := t.errinfo0, errinfo1 := t.errinfo1, errinfo2 := t.errinfo2 } := by
  rcases exec_rdbit_eq_next.mp h with ⟨e, -, rfl⟩ | ⟨-, -, v, -, rfl⟩ <;> rfl

theorem exec_wrbit_frame (h : exec .wrbit s = .next t) :
    t = { s with
      pix := t.pix
      status := t.status, errinfo0 := t.errinfo0, errinfo1 := t.errinfo1, errinfo2 := t.errinfo2 } := by
  rcases exec_wrbit_eq_next.mp h with ⟨e, -, rfl⟩ | ⟨-, -, pix', -, rfl⟩ <;> rfl

end Sys2Proof.Machine
end

section
/-! The operand registers, `CMD`, `TXT` and the parameters: no command writes them (R37), only the host does (R14, R16 to R18,
R29, R32). -/

namespace Sys2Proof.Machine

/-- `t` has the parameters, the command word and the operands of `s` that no command may write (R37). -/
structure SameOperands (s t : State) : Prop where
  params : t.params = s.params
  cmd : t.cmd = s.cmd
  nlen : t.nlen = s.nlen
  tlen : t.tlen = s.tlen
  bitidx : t.bitidx = s.bitidx
  txt : t.txt = s.txt

theorem SameOperands.refl (s : State) : SameOperands s s := ⟨rfl, rfl, rfl, rfl, rfl, rfl⟩

theorem exec_sameOperands {s t : State} {i : Instr} (h : exec i s = .next t) : SameOperands s t := by
  cases i with
  | nop => rw [exec_nop_frame h]; exact ⟨rfl, rfl, rfl, rfl, rfl, rfl⟩
  | encode => rw [exec_encode_frame h]; exact ⟨rfl, rfl, rfl, rfl, rfl, rfl⟩
  | decode => rw [exec_decode_frame h]; exact ⟨rfl, rfl, rfl, rfl, rfl, rfl⟩
  | rdbit => rw [exec_rdbit_frame h]; exact ⟨rfl, rfl, rfl, rfl, rfl, rfl⟩
  | wrbit => rw [exec_wrbit_frame h]; exact ⟨rfl, rfl, rfl, rfl, rfl, rfl⟩

theorem runCommand_sameOperands {s t : State} (h : runCommand s = .next t) : SameOperands s t := by
  unfold runCommand at h
  split at h
  · exact exec_sameOperands h
  · cases h; exact ⟨rfl, rfl, rfl, rfl, rfl, rfl⟩

theorem encodeTurn_sameOperands {s t : State} (h : encodeTurn s = .next t) : SameOperands s t := by
  rcases encodeTurn_cases h with ⟨-, e, -, rfl⟩ | ⟨-, cps, -, rfl⟩ | ⟨-, -, m, -, rfl⟩ | ⟨-, -, -, c, m, -, -, rfl⟩ |
    ⟨-, -, rfl⟩ <;> exact ⟨rfl, rfl, rfl, rfl, rfl, rfl⟩

theorem decodeTurn_sameOperands {s t : State} (h : decodeTurn s = .next t) : SameOperands s t := by
  rcases decodeTurn_cases h with ⟨-, e, -, rfl⟩ | ⟨-, -, rfl⟩ | ⟨-, -, b, -, rfl⟩ | ⟨-, -, -, b, c, o, -, -, -, rfl⟩ |
    ⟨-, -, rfl⟩ <;> exact ⟨rfl, rfl, rfl, rfl, rfl, rfl⟩

theorem engineTurn_sameOperands {s t : State} (h : engineTurn s = .next t) : SameOperands s t := by
  by_cases hencode : s.cmd = 0x01
  · exact encodeTurn_sameOperands (engineTurn_encode hencode ▸ h)
  by_cases hdecode : s.cmd = 0x02
  · exact decodeTurn_sameOperands (engineTurn_decode hdecode ▸ h)
  · exact runCommand_sameOperands (engineTurn_short hencode hdecode ▸ h)

/-! ### Host events -/

@[simp] theorem regWrite_params (s : State) (r : Nat) (v : Word) : (regWrite s r v).params = s.params := by
  rw [regWrite_frame]

@[simp] theorem regWrite_cmd (s : State) (r : Nat) (v : Word) : (regWrite s r v).cmd = s.cmd := by
  rw [regWrite_frame]

@[simp] theorem regWrite_txt (s : State) (r : Nat) (v : Word) : (regWrite s r v).txt = s.txt := by
  rw [regWrite_frame]

/-- `NLEN` changes by a write of register 2 only (R16). -/
theorem regWrite_nlen (s : State) (r : Nat) (v : Word) :
    (regWrite s r v).nlen = s.nlen ∨ r = 2 ∧ (regWrite s r v).nlen = v := by
  unfold regWrite
  split <;> simp

/-- `TLEN` changes by a write of register 3 only (R17). -/
theorem regWrite_tlen (s : State) (r : Nat) (v : Word) :
    (regWrite s r v).tlen = s.tlen ∨ r = 3 ∧ (regWrite s r v).tlen = v := by
  unfold regWrite
  split <;> simp

/-- `BITIDX` changes by a write of register 4 only (R18). -/
theorem regWrite_bitidx (s : State) (r : Nat) (v : Word) :
    (regWrite s r v).bitidx = s.bitidx ∨ r = 4 ∧ (regWrite s r v).bitidx = v := by
  unfold regWrite
  split <;> simp

theorem pixWrite_sameOperands (a : Nat) (v : Byte) (s : State) : SameOperands s (pixWrite a v s) := by
  unfold pixWrite
  split_ifs <;> exact ⟨rfl, rfl, rfl, rfl, rfl, rfl⟩

/-- `e` accounts for every difference between the operands of `s` and of `t`: each register is changed by a write of its own
number, to the value written, and `TXT` by a `TxtWrite`. -/
structure WritesOperands (e : HostEvent) (s t : State) : Prop where
  cmd : t.cmd = s.cmd ∨ ∃ v : Word, e = .regWrite 0 v ∧ t.cmd = v.extractLsb' 0 8
  nlen : t.nlen = s.nlen ∨ e = .regWrite 2 t.nlen
  tlen : t.tlen = s.tlen ∨ e = .regWrite 3 t.tlen
  bitidx : t.bitidx = s.bitidx ∨ e = .regWrite 4 t.bitidx
  txt : t.txt = s.txt ∨ ∃ a v, e = .txtWrite a v

theorem SameOperands.writesOperands {s t : State} (h : SameOperands s t) (e : HostEvent) : WritesOperands e s t :=
  ⟨.inl h.cmd, .inl h.nlen, .inl h.tlen, .inl h.bitidx, .inl h.txt⟩

/-- A `CMD` write changes `CMD`; the command that runs in the same step changes none of the operands. -/
theorem writesOperands_of_accept {s t : State} {v : Word} (h : SameOperands (accept (v.setWidth 8) s) t) :
    WritesOperands (.regWrite 0 v) s t :=
  { h.writesOperands (.regWrite 0 v) with cmd := .inr ⟨v, rfl, h.cmd.trans (setWidth_eq_low v)⟩ }

theorem regWrite_writesOperands (s : State) (r : Nat) (v : Word) : WritesOperands (.regWrite r v) s (regWrite s r v) where
  cmd := .inl (regWrite_cmd s r v)
  nlen := (regWrite_nlen s r v).imp_right fun ⟨hr, hv⟩ => by rw [hr] at hv ⊢; rw [hv]
  tlen := (regWrite_tlen s r v).imp_right fun ⟨hr, hv⟩ => by rw [hr] at hv ⊢; rw [hv]
  bitidx := (regWrite_bitidx s r v).imp_right fun ⟨hr, hv⟩ => by rw [hr] at hv ⊢; rw [hv]
  txt := .inl (regWrite_txt s r v)

theorem hostEvent_writesOperands {s t : State} {e : HostEvent} (h : hostEvent e s = .next t) :
    e = .reset ∨ WritesOperands e s t := by
  rcases hostEvent_cases h with ⟨rfl, -⟩ | ⟨v, rfl, ⟨-, hrun⟩ | ⟨-, rfl⟩⟩ | ⟨r, v, rfl, -, rfl⟩ | ⟨a, v, -, rfl⟩ |
    ⟨a, v, rfl, -, rfl⟩ | ⟨r, rfl⟩
  · exact .inl rfl
  · exact .inr (writesOperands_of_accept (runCommand_sameOperands hrun))
  · exact .inr (writesOperands_of_accept (.refl _))
  · exact .inr (regWrite_writesOperands s r v)
  · exact .inr ((pixWrite_sameOperands a v s).writesOperands e)
  · exact .inr (by split_ifs <;> exact ⟨.inl rfl, .inl rfl, .inl rfl, .inl rfl, .inr ⟨a, v, rfl⟩⟩)
  · exact .inr ⟨.inl rfl, .inl rfl, .inl rfl, .inl rfl, .inl rfl⟩

theorem hostEvent_params {s t : State} {e : HostEvent} (h : hostEvent e s = .next t) : t.params = s.params := by
  rcases hostEvent_cases h with ⟨-, rfl⟩ | ⟨v, -, ⟨-, hrun⟩ | ⟨-, rfl⟩⟩ | ⟨r, v, -, -, rfl⟩ | ⟨a, v, -, rfl⟩ |
    ⟨a, v, -, -, rfl⟩ | ⟨r, rfl⟩
  · rfl
  · exact (runCommand_sameOperands hrun).params
  · rfl
  · exact regWrite_params s r v
  · exact (pixWrite_sameOperands a v s).params
  · split_ifs <;> rfl
  · rfl

/-- Settles O35, by what the step does. -/
theorem stepKeepsTheParameters : Obligations.StepKeepsTheParameters := by
  intro s t h
  rcases step_effect h with ⟨ts, -, hturn⟩ | ⟨-, e, es, -, hevent⟩ | ⟨-, ts, es, rfl⟩ | ⟨ts, es, rs, rfl⟩
  · exact (engineTurn_sameOperands hturn).params
  · exact hostEvent_params (s := { s with inputs := es }) hevent
  · rfl
  · rfl

/-- Settles O39: only a host event of an idle block writes operands, each by its own transaction. -/
theorem operandsChangeOnlyByTheHost : Obligations.OperandsChangeOnlyByTheHost := by
  intro s t h
  rcases step_effect h with ⟨ts, -, hturn⟩ | ⟨hb, e, es, hi, hevent⟩ | ⟨hreset, -⟩ | ⟨ts, es, rs, rfl⟩
  · obtain ⟨-, hcmd, hnlen, htlen, hbitidx, htxt⟩ := engineTurn_sameOperands hturn
    exact .inr ⟨.inl hcmd, .inl hnlen, .inl htlen, .inl hbitidx, .inl htxt⟩
  · have htakes : ∀ e', e = e' → s.busy = false ∧ s.takes e' := by
      rintro _ rfl
      exact ⟨hb, takes_of_idle hb hi⟩
    rcases hostEvent_writesOperands (s := { s with inputs := es }) hevent with he | ⟨hcmd, hnlen, htlen, hbitidx, htxt⟩
    · exact .inl (htakes _ he).2
    · refine .inr ⟨hcmd.imp_right fun ⟨v, he, hv⟩ => ⟨hb, v, (htakes _ he).2, hv⟩, hnlen.imp_right (htakes _),
        htlen.imp_right (htakes _), hbitidx.imp_right (htakes _), htxt.imp_right fun ⟨a, v, he⟩ => ⟨hb, a, v, (htakes _ he).2⟩⟩
  · exact .inl hreset
  · exact .inr ⟨.inl rfl, .inl rfl, .inl rfl, .inl rfl, .inl rfl⟩

end Sys2Proof.Machine
end

section
/-! `PIX`: what a command and a turn of the engine leave of it (R28, R37, R41, R107). -/

namespace Sys2Proof.Machine

/-- Bits 7:1 of every element are the same, and so is which elements have a value (R41). -/
def SameUpperBits (m m' : Memory Byte) : Prop :=
  ∀ p, (Memory.read m' p).map (fun v => v.extractLsb' 1 7) = (Memory.read m p).map (fun v => v.extractLsb' 1 7)

theorem SameUpperBits.refl (m : Memory Byte) : SameUpperBits m m := fun _ => rfl

theorem SameUpperBits.trans {a b c : Memory Byte} (h : SameUpperBits a b) (h' : SameUpperBits b c) : SameUpperBits a c :=
  fun p => (h' p).trans (h p)

theorem lsbWrite_sameUpperBits {m m' : Memory Byte} {p : Nat} {b : Bit} (h : lsbWrite m p b = .next m') :
    SameUpperBits m m' := by
  intro q
  rw [lsbWrite_read h]
  split_ifs with hq
  · simp [hq, Function.comp_def]
  · rfl

theorem packBits_sameUpperBits {m m' : Memory Byte} {p : Nat} {s : List Bit} (h : packBits m p s = .next m') :
    SameUpperBits m m' := by
  induction s generalizing m p with
  | nil => cases h; exact .refl _
  | cons b s ih =>
    rw [packBits_cons, andThen_eq_next] at h
    obtain ⟨m₁, hwrite, h⟩ := h
    exact (lsbWrite_sameUpperBits hwrite).trans (ih h)

theorem embed_sameUpperBits {m m' : Memory Byte} {bs : Nat} {cps : List CodePoint} (h : embed m bs cps = .next m') :
    SameUpperBits m m' := by
  obtain ⟨m₁, hheader, hpayload⟩ := andThen_eq_next.mp h
  exact (packBits_sameUpperBits hheader).trans (packBits_sameUpperBits hpayload)

/-- R37: only ENCODE and WRBIT write `PIX`. -/
theorem exec_pix {s t : State} {i : Instr} (h : exec i s = .next t) (hencode : i ≠ .encode) (hwrbit : i ≠ .wrbit) :
    t.pix = s.pix := by
  cases i with
  | nop => rw [exec_nop_frame h]
  | encode => exact absurd rfl hencode
  | decode => rw [exec_decode_frame h]
  | rdbit => rw [exec_rdbit_frame h]
  | wrbit => exact absurd rfl hwrbit

/-- R37: WRBIT writes the element at `BITIDX` only, which is below `NLEN`. -/
theorem exec_wrbit_pix {s t : State} (h : exec .wrbit s = .next t) (p : Nat)
    (hp : p ≠ s.bitidx.toNat ∨ s.nlen.toNat ≤ p) : Memory.read t.pix p = Memory.read s.pix p := by
  rcases exec_wrbit_eq_next.mp h with ⟨e, -, rfl⟩ | ⟨-, hidx, pix', hwrite, rfl⟩
  · rfl
  · exact (lsbWrite_read hwrite p).trans (if_neg (by omega))

theorem encodeChecks_length {s : State} {cps : List CodePoint} (h : encodeChecks s = .next (.ok cps)) :
    cps.length = s.tlen.toNat := by
  obtain ⟨-, -, -, hscan⟩ := encodeChecks_eq_ok.mp h
  exact (scanText_eq_ok.mp hscan).1

/-- R106, R107: ENCODE writes no element from `64 + bin_size` on. -/
theorem exec_encode_pix {s t : State} (h : exec .encode s = .next t) (p : Nat) (hp : 64 + encodeSize s ≤ p) :
    Memory.read t.pix p = Memory.read s.pix p := by
  rcases exec_encode_eq_next.mp h with ⟨e, -, rfl⟩ | ⟨cps, pix', hok, hembed, rfl⟩
  · rfl
  · have hsize : encodeSize s ≤ 8 * cps.length := by
      rw [encodeChecks_length hok]
      exact encodeSize_le_want s
    refine (embed_read hembed hsize p).trans ?_
    rw [if_neg (by omega), if_neg (by omega)]

theorem exec_sameUpperBits {s t : State} {i : Instr} (h : exec i s = .next t) : SameUpperBits s.pix t.pix := by
  by_cases hencode : i = .encode
  · subst hencode
    rcases exec_encode_eq_next.mp h with ⟨e, -, rfl⟩ | ⟨cps, pix', -, hembed, rfl⟩
    · exact .refl _
    · exact embed_sameUpperBits hembed
  by_cases hwrbit : i = .wrbit
  · subst hwrbit
    rcases exec_wrbit_eq_next.mp h with ⟨e, -, rfl⟩ | ⟨-, -, pix', hwrite, rfl⟩
    · exact .refl _
    · exact lsbWrite_sameUpperBits hwrite
  · rw [exec_pix h hencode hwrbit]
    exact .refl _

theorem runCommand_sameUpperBits {s t : State} (h : runCommand s = .next t) : SameUpperBits s.pix t.pix := by
  unfold runCommand at h
  split at h
  · exact exec_sameUpperBits h
  · cases h; exact .refl _

theorem encodeTurn_sameUpperBits {s t : State} (h : encodeTurn s = .next t) : SameUpperBits s.pix t.pix := by
  rcases encodeTurn_cases h with ⟨-, e, -, rfl⟩ | ⟨-, cps, -, rfl⟩ | ⟨-, -, m, hwrite, rfl⟩ |
    ⟨-, -, -, c, m, -, hwrite, rfl⟩ | ⟨-, -, rfl⟩
  · exact .refl _
  · exact .refl _
  · exact lsbWrite_sameUpperBits hwrite
  · exact lsbWrite_sameUpperBits hwrite
  · exact .refl _

theorem decodeTurn_pix {s t : State} (h : decodeTurn s = .next t) : t.pix = s.pix := by
  rcases decodeTurn_cases h with ⟨-, e, -, rfl⟩ | ⟨-, -, rfl⟩ | ⟨-, -, b, -, rfl⟩ | ⟨-, -, -, b, c, o, -, -, -, rfl⟩ |
    ⟨-, -, rfl⟩ <;> rfl

theorem engineTurn_sameUpperBits {s t : State} (h : engineTurn s = .next t) : SameUpperBits s.pix t.pix := by
  by_cases hencode : s.cmd = 0x01
  · exact encodeTurn_sameUpperBits (engineTurn_encode hencode ▸ h)
  by_cases hdecode : s.cmd = 0x02
  · rw [engineTurn_decode hdecode] at h
    rw [decodeTurn_pix h]
    exact .refl _
  · exact runCommand_sameUpperBits (engineTurn_short hencode hdecode ▸ h)

@[simp] theorem regWrite_pix (s : State) (r : Nat) (v : Word) : (regWrite s r v).pix = s.pix := by
  rw [regWrite_frame]

theorem hostEvent_sameUpperBits {s t : State} {e : HostEvent} (h : hostEvent e s = .next t) :
    SameUpperBits s.pix t.pix ∨ e = .reset ∨ ∃ a v, e = .pixWrite a v := by
  rcases hostEvent_cases h with ⟨he, -⟩ | ⟨v, -, ⟨-, hrun⟩ | ⟨-, rfl⟩⟩ | ⟨r, v, -, -, rfl⟩ | ⟨a, v, he, -⟩ |
    ⟨a, v, -, -, rfl⟩ | ⟨r, rfl⟩
  · exact .inr (.inl he)
  · exact .inl (runCommand_sameUpperBits (s := accept (v.setWidth 8) s) hrun)
  · exact .inl (.refl _)
  · rw [regWrite_pix]
    exact .inl (.refl _)
  · exact .inr (.inr ⟨a, v, he⟩)
  · exact .inl (by split_ifs <;> exact .refl _)
  · exact .inl (.refl _)

/-- Settles O38: commands and the engine reach `PIX` through `LsbWrite` only, which keeps bits 7:1. -/
theorem upperBitsChangeOnlyByTheHost : Obligations.UpperBitsChangeOnlyByTheHost := by
  intro s t h
  rcases step_effect h with ⟨ts, -, hturn⟩ | ⟨hb, e, es, hi, hevent⟩ | ⟨hreset, -⟩ | ⟨ts, es, rs, rfl⟩
  · exact .inl (engineTurn_sameUpperBits (s := { s with turns := ts }) hturn)
  · have htakes : s.takes e := takes_of_idle hb hi
    rcases hostEvent_sameUpperBits (s := { s with inputs := es }) hevent with hsame | rfl | ⟨a, v, rfl⟩
    · exact .inl hsame
    · exact .inr (.inl htakes)
    · exact .inr (.inr ⟨hb, a, v, htakes⟩)
  · exact .inr (.inl hreset)
  · exact .inl (SameUpperBits.refl _)

end Sys2Proof.Machine
end

section
/-! Which command writes what (R37), and what no command reads (R27, R152). -/

namespace Sys2Proof.Machine

/-- A command that answers has raised, or ends without an error (R147, R149). -/
theorem exec_raises_or_completes {s t : State} {i : Instr} (h : exec i s = .next t) :
    (∃ e, t = raise e s) ∨ t.err = false := by
  cases i with
  | nop => cases h; exact .inr (completeOk_err _ _)
  | encode =>
    rcases exec_encode_eq_next.mp h with ⟨e, -, rfl⟩ | ⟨cps, pix', -, -, rfl⟩
    exacts [.inl ⟨e, rfl⟩, .inr (completeOk_err _ _)]
  | decode =>
    rcases exec_decode_eq_next.mp h with ⟨e, -, rfl⟩ | ⟨n, o, -, -, -, -, rfl⟩
    exacts [.inl ⟨e, rfl⟩, .inr (completeOk_err _ _)]
  | rdbit =>
    rcases exec_rdbit_eq_next.mp h with ⟨e, -, rfl⟩ | ⟨-, -, v, -, rfl⟩
    exacts [.inl ⟨e, rfl⟩, .inr (completeOk_err _ _)]
  | wrbit =>
    rcases exec_wrbit_eq_next.mp h with ⟨e, -, rfl⟩ | ⟨-, -, pix', -, rfl⟩
    exacts [.inl ⟨e, rfl⟩, .inr (completeOk_err _ _)]

/-- R147: a command that ends in an error has changed `STATUS` and `ERRINFO0..2` only. -/
theorem exec_frame_of_err {s t : State} {i : Instr} (h : exec i s = .next t) (herr : t.err = true) :
    t = { s with status := t.status, errinfo0 := t.errinfo0, errinfo1 := t.errinfo1, errinfo2 := t.errinfo2 } := by
  rcases exec_raises_or_completes h with ⟨e, rfl⟩ | hok
  · rfl
  · simp [hok] at herr

theorem exec_bitdat {s t : State} {i : Instr} (h : exec i s = .next t) (hi : i ≠ .rdbit) : t.bitdat = s.bitdat := by
  cases i with
  | nop => rw [exec_nop_frame h]
  | encode => rw [exec_encode_frame h]
  | decode => rw [exec_decode_frame h]
  | rdbit => exact absurd rfl hi
  | wrbit => rw [exec_wrbit_frame h]

theorem exec_binsize {s t : State} {i : Instr} (h : exec i s = .next t) (hencode : i ≠ .encode) (hdecode : i ≠ .decode) :
    t.binsize = s.binsize := by
  cases i with
  | nop => rw [exec_nop_frame h]
  | encode => exact absurd rfl hencode
  | decode => exact absurd rfl hdecode
  | rdbit => rw [exec_rdbit_frame h]
  | wrbit => rw [exec_wrbit_frame h]

theorem exec_outlen {s t : State} {i : Instr} (h : exec i s = .next t) (hi : i ≠ .decode) : t.outlen = s.outlen := by
  cases i with
  | nop => rw [exec_nop_frame h]
  | encode => rw [exec_encode_frame h]
  | decode => exact absurd rfl hi
  | rdbit => rw [exec_rdbit_frame h]
  | wrbit => rw [exec_wrbit_frame h]

/-- R128: DECODE writes no element of `OUT` from `OUTLEN` on. -/
theorem exec_decode_out {s t : State} (h : exec .decode s = .next t) (k : Nat) (hk : t.outlen.toNat ≤ k) :
    Memory.read t.out k = Memory.read s.out k := by
  rcases exec_decode_eq_next.mp h with ⟨e, -, rfl⟩ | ⟨n, out', -, -, -, hstore, rfl⟩
  · rfl
  · have hcount : outCount s n ≤ k := ofNat_outCount_toNat s n ▸ hk
    exact (storeChunks_read hstore k).2 (.inr (by omega))

/-- R106: on success `BINSIZE` is the size embedded. -/
theorem exec_encode_binsize {s t : State} (h : exec .encode s = .next t) (herr : t.err = false) :
    t.binsize.toNat = encodeSize s := by
  rcases exec_encode_eq_next.mp h with ⟨e, -, rfl⟩ | ⟨cps, pix', -, -, rfl⟩
  · simp at herr
  · exact ofNat_encodeSize_toNat s

/-- R36 (e): no command writes an element of `PIX` from `NLEN` on. -/
theorem exec_pix_of_nlen_le {s t : State} {i : Instr} (h : exec i s = .next t) (p : Nat) (hp : s.nlen.toNat ≤ p) :
    Memory.read t.pix p = Memory.read s.pix p := by
  by_cases hencode : i = .encode
  · subst hencode
    rcases exec_encode_eq_next.mp h with ⟨e, -, rfl⟩ | ⟨cps, pix', hok, -, -⟩
    · rfl
    · obtain ⟨-, -, hheader, -⟩ := encodeChecks_eq_ok.mp hok
      exact exec_encode_pix h p ((header_add_encodeSize_le hheader).trans hp)
  by_cases hwrbit : i = .wrbit
  · subst hwrbit
    exact exec_wrbit_pix h p (.inr hp)
  · rw [exec_pix h hencode hwrbit]

/-- Settles O28, row by row of R37. -/
theorem commandsWriteOnlyTheirResults : Obligations.CommandsWriteOnlyTheirResults := by
  intro i s t h
  obtain ⟨hparams, hcmd, hnlen, htlen, hbitidx, htxt⟩ := exec_sameOperands h
  refine ⟨exec_frame_of_err h, ⟨hparams, hcmd, hnlen, htlen, hbitidx, htxt⟩, exec_bitdat h, exec_binsize h,
    fun hi => ⟨exec_outlen h hi, exec_out h hi⟩, ?_, exec_pix h, ?_, ?_, exec_sameUpperBits h, exec_pix_of_nlen_le h⟩
  · rintro rfl -
    exact exec_decode_out h
  · rintro rfl p hp
    exact exec_wrbit_pix h p (.inl hp)
  · rintro rfl herr p hp
    exact exec_encode_pix h p (exec_encode_binsize h herr ▸ hp)

/-! ### `STATUS` and `ERRINFO0..2` are written, not read -/

/-- `s` with other values in `STATUS` and `ERRINFO0..2`. -/
def State.withFlags (s : State) (st : Byte) (e0 e1 e2 : Word) : State :=
  { s with status := st, errinfo0 := e0, errinfo1 := e1, errinfo2 := e2 }

@[simp] theorem raise_withFlags (e : FatalError) (s : State) (st : Byte) (e0 e1 e2 : Word) :
    raise e (s.withFlags st e0 e1 e2) = raise e s := rfl

@[simp] theorem completeOk_withFlags (w : Bool) (s : State) (st : Byte) (e0 e1 e2 : Word) :
    completeOk w (s.withFlags st e0 e1 e2) = completeOk w s := rfl

/-- Raising overwrites the flags, so a command reads them only if its checks or what follows them do. -/
theorem guarded_withFlags {α : Type} (c : Result (Except FatalError α)) (s : State) (st : Byte) (e0 e1 e2 : Word)
    (rest : α → Result State) : guarded c (s.withFlags st e0 e1 e2) rest = guarded c s rest := by
  rcases c with (e | a) | r | r <;> simp

/-- Settles O29: the checks read other fields, and both ways of completing overwrite the flags. -/
theorem commandsReadNoFlag : Obligations.CommandsReadNoFlag := by
  intro i s st e0 e1 e2
  cases i with
  | nop => exact congrArg Host.Outcome.next (completeOk_withFlags false s st e0 e1 e2)
  | encode => exact guarded_withFlags (encodeChecks s) s st e0 e1 e2 _
  | decode => exact guarded_withFlags (decodeChecks s) s st e0 e1 e2 _
  | rdbit => exact guarded_withFlags (bitChecks s) s st e0 e1 e2 _
  | wrbit => exact guarded_withFlags (bitChecks s) s st e0 e1 e2 _

end Sys2Proof.Machine
end

section
/-! The cursor `POS` in the micro-sequences of ENCODE and DECODE (R33, R185, R186). -/

namespace Sys2Proof.Machine

/-- What one turn of ENCODE or DECODE does with the cursor: the starting turn sets it to 0, a later turn advances it by 1 inside
the buffer, the completing turn leaves it. -/
structure CursorTurn (s t : State) : Prop where
  turns : t.turns = s.turns
  starts : s.checked = false → t.busy = true → t.pos = 0 ∧ t.checked = true
  advances : s.checked = true → t.busy = true → t.pos.toNat = s.pos.toNat + 1 ∧ t.pos.toNat ≤ s.nlen.toNat
  completes : t.busy = false → t.pos = s.pos

variable {s t : State}

theorem cursorTurn_of_complete (hturns : t.turns = s.turns) (hb : t.busy = false) (hpos : t.pos = s.pos) : CursorTurn s t where
  turns := hturns
  starts := fun _ hb' => by simp [hb] at hb'
  advances := fun _ hb' => by simp [hb] at hb'
  completes := fun _ => hpos

theorem cursorTurn_of_start (hturns : t.turns = s.turns) (hb : t.busy = true) (hc : s.checked = false) (hpos : t.pos = 0)
    (hc' : t.checked = true) : CursorTurn s t where
  turns := hturns
  starts := fun _ _ => ⟨hpos, hc'⟩
  advances := fun hc' => by simp [hc] at hc'
  completes := fun hb' => by simp [hb] at hb'

theorem cursorTurn_of_advance (hturns : t.turns = s.turns) (hb : t.busy = true) (hc : s.checked = true)
    (hlt : s.pos.toNat < s.nlen.toNat) (hpos : t.pos = s.pos + 1) : CursorTurn s t where
  turns := hturns
  starts := fun hc' => by simp [hc] at hc'
  advances := fun _ _ => by
    rw [hpos, pos_succ_toNat_of_lt_nlen hlt]
    exact ⟨rfl, hlt⟩
  completes := fun hb' => by simp [hb] at hb'

theorem encodeTurn_cursorTurn (hb : s.busy = true) (hnlen : 64 ≤ s.nlen.toNat) (h : encodeTurn s = .next t) :
    CursorTurn s t := by
  rcases encodeTurn_cases h with ⟨-, e, -, rfl⟩ | ⟨hc, cps, -, rfl⟩ | ⟨hc, hpos, m, -, rfl⟩ |
    ⟨hc, -, hpos, c, m, -, -, rfl⟩ | ⟨-, -, rfl⟩
  · exact cursorTurn_of_complete rfl (raise_busy e s) rfl
  · exact cursorTurn_of_start rfl hb hc rfl rfl
  · exact cursorTurn_of_advance rfl hb hc (hpos.trans_le hnlen) rfl
  · exact cursorTurn_of_advance rfl hb hc (hpos.trans_le (header_add_encodeSize_le hnlen)) rfl
  · exact cursorTurn_of_complete rfl (completeOk_busy _ _) rfl

theorem decodeTurn_cursorTurn (hb : s.busy = true) (hnlen : 64 ≤ s.nlen.toNat) (h : decodeTurn s = .next t) :
    CursorTurn s t := by
  rcases decodeTurn_cases h with ⟨-, e, -, rfl⟩ | ⟨hc, -, rfl⟩ | ⟨hc, hpos, b, -, rfl⟩ |
    ⟨hc, -, hpos, b, c, o, -, -, -, rfl⟩ | ⟨-, -, rfl⟩
  · exact cursorTurn_of_complete rfl (raise_busy e s) rfl
  · exact cursorTurn_of_start rfl hb hc rfl rfl
  · exact cursorTurn_of_advance rfl hb hc (hpos.trans_le hnlen) rfl
  · exact cursorTurn_of_advance rfl hb hc (hpos.trans_le (header_add_chunks_le hnlen _)) rfl
  · exact cursorTurn_of_complete rfl (completeOk_busy _ _) rfl

theorem engineTurn_cursorTurn (hb : s.busy = true) (hcmd : s.cmd = 0x01 ∨ s.cmd = 0x02) (hnlen : 64 ≤ s.nlen.toNat)
    (h : engineTurn s = .next t) : CursorTurn s t := by
  rcases hcmd with hcmd | hcmd
  · rw [engineTurn_encode hcmd] at h
    exact encodeTurn_cursorTurn hb hnlen h
  · rw [engineTurn_decode hcmd] at h
    exact decodeTurn_cursorTurn hb hnlen h

/-- Settles O54: the step is a turn of ENCODE or of DECODE, and each moves the cursor as `CursorTurn` says. -/
theorem cursorAdvancesByOne : Obligations.CursorAdvancesByOne := by
  intro s t ts hm hcmd hnlen h
  have hbusy : s.busy = true := hm.1
  rw [step_engineMoves hm] at h
  obtain ⟨hturns, hstarts, hadvances, hcompletes⟩ := engineTurn_cursorTurn (s := { s with turns := ts }) hbusy hcmd hnlen h
  exact ⟨hturns, hstarts, hadvances, hcompletes⟩

end Sys2Proof.Machine
end

section
/-! Host transactions of an idle block on its registers and its decoded text (R10, R13 to R19, R25, R26). -/

namespace Sys2Proof.Machine

/-- Settles O34: the invariant gives the element its value and puts it inside `OUT`, so the read is answered. -/
theorem decodedTextIsReadable : Obligations.DecodedTextIsReadable := by
  intro s k es hinv hb hi hk
  obtain ⟨v, hv⟩ := Option.isSome_iff_exists.mp (hinv.decoded k hk)
  have hin : k < s.params.outCap := Memory.lt_of_within _ _ _ _ hinv.outWithin hv
  exact ⟨v, hv, by rw [step_event hb hi]; exact hostEvent_outRead_of_some hin hv⟩

theorem hostEvent_regRead (s : State) (r : Nat) : hostEvent (.regRead r) s = .next (reply (.reg r (regRead s r)) s) := rfl

/-- A write to `CMD` of an idle block accepts the low 8 bits, and in the coarse grain runs them (R14, R177). -/
theorem hostEvent_regWrite_cmd (s : State) (v : Word) : hostEvent (.regWrite 0 v) s = issue (v.extractLsb' 0 8) s := by
  simp [hostEvent, setWidth_eq_low]

theorem hostEvent_regWrite_of_ne {s : State} {r : Nat} (v : Word) (hr : r ≠ 0) :
    hostEvent (.regWrite r v) s = .next (regWrite s r v) := by
  simp [hostEvent, hr]

theorem issue_of_command {s : State} (c : Byte) (h : s.grain = .command) : issue c s = runCommand (accept c s) := by
  simp [issue, h]

theorem issue_of_request {s : State} (c : Byte) (h : s.grain = .request) : issue c s = .next (accept c s) := by
  simp [issue, h]

/-- Numbers 11 and above read 0 (R25). -/
theorem regRead_of_absent (s : State) {r : Nat} (hr : 11 ≤ r) : regRead s r = 0 := by
  obtain ⟨n, rfl⟩ := Nat.exists_eq_add_of_le' hr
  rfl

/-- `STATUS`, the results and numbers 11 and above do not change (R15, R25). -/
theorem regWrite_of_readOnly (s : State) {r : Nat} (v : Word) (hr : r = 1 ∨ 6 ≤ r) : regWrite s r v = s := by
  rcases hr with rfl | hr
  · rfl
  · obtain ⟨n, rfl⟩ := Nat.exists_eq_add_of_le' hr
    rfl

/-- Settles O6: the accepted word is the command's, so running it is the command's meaning. -/
theorem stepRunsTheDecodedCommand : Obligations.StepRunsTheDecodedCommand := by
  intro s v es i hb hgrain hi hdecode
  rw [step_event hb hi, hostEvent_regWrite_cmd, issue_of_command (s := { s with inputs := es }) _ hgrain]
  exact runCommand_command ((decodeCmd_eq_command_iff _ i).mp hdecode)

/-- Settles O51: in the fine grain the step is the acceptance alone. -/
theorem acceptOpensTheBusyWindow : Obligations.AcceptOpensTheBusyWindow := by
  intro s v es hb hgrain hi
  rw [step_event hb hi, hostEvent_regWrite_cmd]
  exact issue_of_request (s := { s with inputs := es }) _ hgrain

/-- Settles O45: the reply is `regRead`, register by register. -/
theorem registerReadsReturnTheRegister : Obligations.RegisterReadsReturnTheRegister := by
  intro s r es hb hi
  refine ⟨regRead s r, by rw [step_event hb hi]; exact hostEvent_regRead { s with inputs := es } r, ?_, ?_, ?_, ?_, ?_, ?_, ?_,
    ?_, ?_, ?_, ?_, regRead_of_absent s⟩ <;> rintro rfl
  · exact BitVec.toNat_setWidth_of_le (by decide)
  · exact BitVec.toNat_setWidth_of_le (by decide)
  · rfl
  · rfl
  · rfl
  · exact BitVec.toNat_setWidth_of_le (by decide)
  all_goals rfl

/-- Settles O46: the step is `regWrite`, register by register. -/
theorem registerWritesSetTheOperand : Obligations.RegisterWritesSetTheOperand := by
  intro s r v es hb hi
  have hstep (hr : r ≠ 0) : step s = .next (regWrite { s with inputs := es } r v) := by
    rw [step_event hb hi, hostEvent_regWrite_of_ne v hr]
  refine ⟨?_, ?_, ?_, ?_, fun hr => ?_⟩
  · rintro rfl; exact hstep (by decide)
  · rintro rfl; exact hstep (by decide)
  · rintro rfl; exact hstep (by decide)
  · rintro rfl
    have hbit : v.setWidth 1 = BitVec.ofNat 1 (v.toNat % 2) := by
      apply BitVec.eq_of_toNat_eq
      simp
    rw [hstep (by decide), ← hbit]
    rfl
  · rw [hstep (by omega), regWrite_of_readOnly _ v hr]

end Sys2Proof.Machine
end

section
/-! Host reads that find no value: outside a memory (R56), or of an element never written (R172). -/

namespace Sys2Proof.Machine

theorem portRead_of_le {α : Type} {space : Space} {cap a : Nat} {m : Memory α} (ha : cap ≤ a) :
    portRead space cap m a = .refused (.outsideMemory space a) := if_neg (not_lt.mpr ha)

theorem portRead_of_none {α : Type} {space : Space} {cap a : Nat} {m : Memory α} (ha : a < cap)
    (hm : Memory.read m a = none) : portRead space cap m a = .refused (.unwritten space a) :=
  (if_pos ha).trans (memRead_of_none hm)

theorem hostEvent_pixRead_of_refused {s : State} {a : Nat} {r : Refusal}
    (h : portRead .pix s.params.pixCap s.pix a = .refused r) : hostEvent (.pixRead a) s = .refused r := by
  simp [hostEvent, h]

theorem hostEvent_txtRead_of_refused {s : State} {a : Nat} {r : Refusal}
    (h : portRead .txt s.params.txtCap s.txt a = .refused r) : hostEvent (.txtRead a) s = .refused r := by
  simp [hostEvent, h]

theorem hostEvent_outRead_of_refused {s : State} {a : Nat} {r : Refusal}
    (h : portRead .out s.params.outCap s.out a = .refused r) : hostEvent (.outRead a) s = .refused r := by
  simp [hostEvent, h]

/-- Settles O50: each read event passes on the refusal of its `portRead`. -/
theorem memoryReadsWithoutValueAreRefused : Obligations.MemoryReadsWithoutValueAreRefused := by
  intro s a es hb
  refine ⟨fun hi ha => ?_, fun hi ha => ?_, fun hi ha => ?_, fun hi ha hm => ?_, fun hi ha hm => ?_, fun hi ha hm => ?_⟩ <;>
    rw [step_event hb hi]
  · exact hostEvent_pixRead_of_refused (portRead_of_le ha)
  · exact hostEvent_txtRead_of_refused (portRead_of_le ha)
  · exact hostEvent_outRead_of_refused (portRead_of_le ha)
  · exact hostEvent_pixRead_of_refused (portRead_of_none ha hm)
  · exact hostEvent_txtRead_of_refused (portRead_of_none ha hm)
  · exact hostEvent_outRead_of_refused (portRead_of_none ha hm)

end Sys2Proof.Machine
end

section
/-! ENCODE repeated on its own result (R48, R108). -/

namespace Sys2Proof.Machine

theorem SameUpperBits.loaded {m m' : Memory Byte} (h : SameUpperBits m m') {p : Nat}
    (hp : ∃ v, Memory.read m p = some v) : ∃ v, Memory.read m' p = some v := by
  obtain ⟨v, hv⟩ := hp
  have hmap := h p
  rw [hv, Option.map_some, Option.map_eq_some_iff] at hmap
  obtain ⟨w, hw, -⟩ := hmap
  exact ⟨w, hw⟩

/-- Embedding the same bits again sets the LSBs to what they are. -/
theorem embed_embed_read {pix pix' pix'' : Memory Byte} {bs : Nat} {cps : List CodePoint} (hb : bs ≤ 8 * cps.length)
    (h : embed pix bs cps = .next pix') (h' : embed pix' bs cps = .next pix'') (q : Nat) :
    Memory.read pix'' q = Memory.read pix' q := by
  rw [embed_read h' hb, embed_read h hb]
  split_ifs with hheader hpayload
  · simp [Function.comp_def]
  · cases cps[(q - 64) / 8]? <;> simp [Function.comp_def]
  · rfl

/-- What has been embedded can be embedded again: the positions still have values. -/
theorem embed_again {pix pix' : Memory Byte} {bs : Nat} {cps : List CodePoint} (hb : bs ≤ 8 * cps.length)
    (h : embed pix bs cps = .next pix') :
    ∃ pix'', embed pix' bs cps = .next pix'' ∧ ∀ q, Memory.read pix'' q = Memory.read pix' q := by
  obtain ⟨pix'', h'⟩ := embed_of_loaded pix' bs cps fun p hp => (embed_sameUpperBits h).loaded (embed_loaded h hb p hp)
  exact ⟨pix'', h', embed_embed_read hb h h'⟩

/-- The size ENCODE embeds is at most the bits of the text it has checked (R102). -/
theorem encodeSize_le_of_checked {s : State} {cps : List CodePoint} (h : encodeChecks s = .next (.ok cps)) :
    encodeSize s ≤ 8 * cps.length := by
  rw [encodeChecks_length h]
  exact encodeSize_le_want s

/-- Settles O18: the checks and the size read nothing that ENCODE wrote, so the second run embeds the same bits again. -/
theorem encodeTwiceChangesNothing : Obligations.EncodeTwiceChangesNothing := by
  intro s t h herr
  rcases exec_encode_eq_next.mp h with ⟨e, -, rfl⟩ | ⟨cps, pix', hok, hembed, rfl⟩
  · simp at herr
  · obtain ⟨pix'', hembed', hread⟩ := embed_again (encodeSize_le_of_checked hok) hembed
    exact ⟨_, exec_encode_eq_next.mpr (.inr ⟨cps, pix'', hok, hembed', rfl⟩), rfl, rfl, hread⟩

end Sys2Proof.Machine
end

section
/-! The command words (R60 to R65): the two fields as arithmetic, the five words, and the rows of the opcode table. -/

namespace Sys2Proof.Machine

theorem fieldZero_eq_div (c : Byte) : fieldZero c = c.toNat / 8 := by
  have := c.isLt
  simp only [fieldZero, BitVec.extractLsb'_toNat, Nat.shiftRight_eq_div_pow]
  omega

theorem fieldOp_eq_mod (c : Byte) : fieldOp c = c.toNat % 8 := by
  simp [fieldOp, BitVec.extractLsb'_toNat]

/-- `ZERO` not 0 alone rejects a word (R65). -/
theorem decodeCmd_of_eight_le {c : Byte} (h : 8 ≤ c.toNat) : decodeCmd c = .illegal (.zeroNotZero (c.toNat / 8)) := by
  have hzero : c.toNat / 8 ≠ 0 := by omega
  rw [decodeCmd, fieldZero_eq_div, if_pos hzero]

/-- With `ZERO` = 0 the `OP` field decides (R63). -/
theorem decodeCmd_of_lt_eight {c : Byte} (h : c.toNat < 8) : decodeCmd c = decodeOp (c.toNat % 8) := by
  have hzero : ¬ c.toNat / 8 ≠ 0 := by omega
  rw [decodeCmd, fieldZero_eq_div, fieldOp_eq_mod, if_neg hzero]

theorem decodeOp_of_five_le {op : Nat} (h : 5 ≤ op) : decodeOp op = .illegal (.opUnassigned op) := by
  obtain ⟨n, rfl⟩ := Nat.exists_eq_add_of_le' h
  rfl

theorem encode_toNat (i : Instr) : (encode i).toNat = opOf i := by
  cases i <;> rfl

theorem exists_opOf_eq {op : Nat} (h : op < 5) : ∃ i, opOf i = op :=
  match op with
  | 0 => ⟨.nop, rfl⟩
  | 1 => ⟨.encode, rfl⟩
  | 2 => ⟨.decode, rfl⟩
  | 3 => ⟨.rdbit, rfl⟩
  | 4 => ⟨.wrbit, rfl⟩

theorem opOf_lt_five (i : Instr) : opOf i < 5 := by
  cases i <;> decide

/-- The words of the commands are exactly those below 5 (R61). -/
theorem exists_eq_encode_iff (c : Byte) : (∃ i, c = encode i) ↔ c.toNat < 5 := by
  constructor
  · rintro ⟨i, rfl⟩
    exact encode_toNat i ▸ opOf_lt_five i
  · intro h
    obtain ⟨i, hi⟩ := exists_opOf_eq h
    exact ⟨i, BitVec.eq_of_toNat_eq (by rw [encode_toNat, hi])⟩

/-- A word is legal exactly when it is below 5 (R61, R65). -/
theorem exists_decodeCmd_eq_command_iff (c : Byte) : (∃ i, decodeCmd c = .command i) ↔ c.toNat < 5 := by
  simp only [decodeCmd_eq_command_iff, exists_eq_encode_iff]

/-- The laws of a command's word (R60 to R63), constructor by constructor. -/
theorem encoding_laws : ∀ i : Instr, Laws.Encoding.Statement i
  | .nop => Laws.Encoding.nop
  | .encode => Laws.Encoding.encode
  | .decode => Laws.Encoding.decode
  | .rdbit => Laws.Encoding.rdbit
  | .wrbit => Laws.Encoding.wrbit

theorem decodeCmd_encode (i : Instr) : decodeCmd (encode i) = .command i := (decodeCmd_eq_command_iff _ i).mpr rfl

/-- Every row compares the whole word with the word of its command (R63). -/
theorem opcodeTable_row : ∀ r ∈ opcodeTable, r.mask = BitVec.allOnes 8 ∧ r.pattern = encode r.instr := by decide

theorem tableLookup_encode (i : Instr) : tableLookup (encode i) = [i] := by
  cases i <;> decide

/-- No row matches a word that is no command's. -/
theorem tableLookup_of_five_le {c : Byte} (h : 5 ≤ c.toNat) : tableLookup c = [] := by
  rw [tableLookup, List.map_eq_nil_iff, List.filter_eq_nil_iff]
  intro r hr hmatch
  obtain ⟨hmask, hpattern⟩ := opcodeTable_row r hr
  rw [hmask, BitVec.and_allOnes, hpattern, beq_iff_eq] at hmatch
  exact absurd ((exists_eq_encode_iff c).mp ⟨r.instr, hmatch⟩) (by omega)

theorem toOption_decodeCmd_of_five_le {c : Byte} (h : 5 ≤ c.toNat) : (decodeCmd c).toOption = none := by
  cases hd : decodeCmd c with
  | command i => exact absurd ((exists_decodeCmd_eq_command_iff c).mp ⟨i, hd⟩) (by omega)
  | illegal why => rfl

/-- The opcode table and the decoder give the same answer (R63). -/
theorem tableLookup_eq_decodeCmd (c : Byte) : tableLookup c = (decodeCmd c).toOption.toList := by
  by_cases h : c.toNat < 5
  · obtain ⟨i, rfl⟩ := (exists_eq_encode_iff c).mpr h
    rw [tableLookup_encode, decodeCmd_encode]
    rfl
  · rw [tableLookup_of_five_le (by omega), toOption_decodeCmd_of_five_le (by omega)]
    rfl

/-- Settles O3: the words are those of the commands, and legal means below 5. -/
theorem commandWordsDecode : Obligations.CommandWordsDecode := by
  refine ⟨decodeCmd_encode .nop, decodeCmd_encode .encode, decodeCmd_encode .decode, decodeCmd_encode .rdbit,
    decodeCmd_encode .wrbit, fun c => ?_⟩
  simp only [decodeCmd_eq_command_iff]
  constructor
  · rintro ⟨i, rfl⟩
    cases i <;> decide
  · intro hc
    refine (exists_eq_encode_iff c).mpr ?_
    revert c
    decide

/-- Settles O4: below 5 the word is a command's, up to 7 `OP` is unassigned, from 8 on `ZERO` is not 0. -/
theorem illegalWordsAreRejected : Obligations.IllegalWordsAreRejected := by
  intro c
  refine ⟨fun h => ?_, fun h5 h8 => ?_, decodeCmd_of_eight_le, tableLookup_eq_decodeCmd c⟩
  · obtain ⟨i, rfl⟩ := (exists_eq_encode_iff c).mpr h
    exact ⟨i, decodeCmd_encode i, rfl⟩
  · rw [decodeCmd_of_lt_eight h8, decodeOp_of_five_le (by omega)]

/-- Settles O5: the laws of a command's word hold of every constructor. -/
theorem decodeOfEncodeIsIdentity : Obligations.DecodeOfEncodeIsIdentity := by
  intro i
  obtain ⟨hwf, -, -, hdecode⟩ := encoding_laws i
  exact ⟨hwf, hdecode⟩

end Sys2Proof.Machine
end

section
/-! The commands that complete at once: an illegal word (R66, R144), and in the fine grain the short commands (log 10). -/

namespace Sys2Proof.Machine

/-- Running a word that is no command's raises `ILLEGAL_COMMAND(0, c, 0)` (R66). -/
theorem runCommand_of_five_le {s : State} (h : 5 ≤ s.cmd.toNat) :
    runCommand s = .next { s with status := 0x46, errinfo0 := 0, errinfo1 := s.cmd.setWidth 64, errinfo2 := 0 } := by
  rw [runCommand_illegal h, raise, illegalCommand, errorStatus_illegalCommand]

/-- Settles O7: the accepted word is no command's, so running it raises `ILLEGAL_COMMAND`. -/
theorem illegalWordCompletesWithError : Obligations.IllegalWordCompletesWithError := by
  intro s v es hb hgrain hi hword
  rw [step_event hb hi, hostEvent_regWrite_cmd, issue_of_command (s := { s with inputs := es }) _ hgrain]
  exact runCommand_of_five_le (s := accept _ { s with inputs := es }) hword

/-- A turn of the engine in a word other than ENCODE's and DECODE's runs it whole. -/
theorem step_engineMoves_short {s : State} {ts : List Agent} (hm : s.engineMoves ts) (hencode : s.cmd ≠ 0x01)
    (hdecode : s.cmd ≠ 0x02) : step s = runCommand { s with turns := ts } := by
  rw [step_engineMoves hm]
  exact engineTurn_short hencode hdecode

theorem step_engineMoves_command {s : State} {ts : List Agent} {i : Instr} (hm : s.engineMoves ts) (hcmd : s.cmd = encode i)
    (hencode : encode i ≠ 0x01) (hdecode : encode i ≠ 0x02) : step s = exec i { s with turns := ts } := by
  rw [step_engineMoves_short hm (hcmd ▸ hencode) (hcmd ▸ hdecode)]
  exact runCommand_command hcmd

theorem step_engineMoves_illegal {s : State} {ts : List Agent} (hm : s.engineMoves ts) (h : 5 ≤ s.cmd.toNat) :
    step s = .next { s with
      turns := ts, status := 0x46, errinfo0 := 0, errinfo1 := s.cmd.setWidth 64, errinfo2 := 0 } := by
  have hshort (c : Byte) (hc : c.toNat < 5) : s.cmd ≠ c := by
    rintro rfl
    omega
  rw [step_engineMoves_short hm (hshort _ (by decide)) (hshort _ (by decide))]
  exact runCommand_of_five_le (s := { s with turns := ts }) h

/-- Settles O57: each of these words is run whole in the turn, and running it is its meaning. -/
theorem shortCommandsCompleteInOneTurn : Obligations.ShortCommandsCompleteInOneTurn := by
  intro s ts hm
  refine ⟨fun h => ?_, fun h => ?_, fun h => ?_, step_engineMoves_illegal hm⟩
  · exact step_engineMoves_command (i := .nop) hm h (by decide) (by decide)
  · exact step_engineMoves_command (i := .rdbit) hm h (by decide) (by decide)
  · exact step_engineMoves_command (i := .wrbit) hm h (by decide) (by decide)

end Sys2Proof.Machine
end

section
/-! `LsbRead` and `LsbWrite`: the laws of R82. -/

namespace Sys2Proof.Machine

variable {m m' : Memory Byte} {p : Nat} {b : Bit}

theorem lsbRead_of_lsbWrite (h : lsbWrite m p b = .next m') : lsbRead m' p = .next b := by
  obtain ⟨old, -, rfl⟩ := lsbWrite_eq_next.mp h
  rw [lsbRead_of_some (Memory.read_write_self _ _ _), lsbOf_setLsb]

theorem lsbWrite_frame (h : lsbWrite m p b = .next m') {q : Nat} (hq : q ≠ p) : Memory.read m' q = Memory.read m q := by
  rw [lsbWrite_read h, if_neg hq]

/-- The last write to a position wins; with the same bit twice, writing is idempotent. -/
theorem lsbWrite_of_lsbWrite {a : Bit} (h : lsbWrite m p a = .next m') : lsbWrite m' p b = lsbWrite m p b := by
  obtain ⟨old, hold, rfl⟩ := lsbWrite_eq_next.mp h
  rw [lsbWrite_of_some (Memory.read_write_self _ _ _), lsbWrite_of_some hold, Memory.write_write_self, setLsb_setLsb]

theorem lsbWrite_of_lsbRead (hwf : Memory.wf m = true) (h : lsbRead m p = .next b) : lsbWrite m p b = .next m := by
  obtain ⟨old, hold, rfl⟩ := lsbRead_eq_next.mp h
  rw [lsbWrite_of_some hold, setLsb_lsbOf, Memory.write_read_self m p old hwf hold]

/-- Writes to two loaded positions in either order give the same memory. -/
theorem lsbWrite_comm {mp mq : Memory Byte} {q : Nat} {a : Bit} (hwf : Memory.wf m = true) (hq : q ≠ p)
    (hmp : lsbWrite m p b = .next mp) (hmq : lsbWrite m q a = .next mq) :
    ∃ m', lsbWrite mq p b = .next m' ∧ lsbWrite mp q a = .next m' := by
  obtain ⟨old, hold, hmp_eq⟩ := lsbWrite_eq_next.mp hmp
  obtain ⟨v, hv, hmq_eq⟩ := lsbWrite_eq_next.mp hmq
  have hpWrite := lsbWrite_of_some (b := b) ((lsbWrite_frame hmq hq.symm).trans hold)
  have hqWrite := lsbWrite_of_some (b := a) ((lsbWrite_frame hmp hq).trans hv)
  refine ⟨_, hpWrite, ?_⟩
  rw [hqWrite, hmp_eq, hmq_eq, Memory.write_comm m q p _ _ hwf hq]

/-- The value changes by exactly the new bit minus the old one (R82 law 7). -/
theorem setLsb_toNat_sub (old : Byte) (b : Bit) :
    ((setLsb old b).toNat : Int) - old.toNat = b.toNat - (old.toNat % 2 : Nat) := by
  rw [setLsb_toNat]
  omega

/-- Settles O40: the element has a value, so both writes answer, and each law of R82 is a lemma above. -/
theorem lsbPrimitivesObeyTheirLaws : Obligations.LsbPrimitivesObeyTheirLaws := by
  intro m p a b old hwf hold
  have ha := lsbWrite_of_some (b := a) hold
  have hb := lsbWrite_of_some (b := b) hold
  refine ⟨_, _, ha, hb, lsbRead_of_lsbWrite hb, fun q hq => lsbWrite_frame hb hq, (lsbWrite_of_lsbWrite hb).trans hb,
    (lsbWrite_of_lsbWrite ha).trans hb, fun hread => ?_, fun q hq ⟨v, hv⟩ => ?_,
    ⟨setLsb old b, Memory.read_write_self _ _ _, upper_setLsb old b, setLsb_toNat_sub old b⟩⟩
  · exact Host.Outcome.next.inj (hb.symm.trans (lsbWrite_of_lsbRead hwf hread))
  · have hmq := lsbWrite_of_some (b := a) hv
    obtain ⟨m', hpq, hqp⟩ := lsbWrite_comm hwf hq hb hmq
    exact ⟨_, m', hmq, hpq, hqp⟩

end Sys2Proof.Machine
end

section
/-! NOP, RDBIT and WRBIT (R84 to R86): the two errors that RDBIT and WRBIT share, and the results. -/

namespace Sys2Proof.Machine

/-- A command behind the checks of RDBIT and WRBIT ends in `LENGTH_EXCEEDS_CAPACITY` when `NLEN > PIX_CAP` (R145 a). -/
theorem guarded_bitChecks_of_long_buffer {s : State} (rest : Unit → Result State) (h : s.params.pixCap < s.nlen.toNat) :
    guarded (bitChecks s) s rest = .next { s with
      status := 0x56, errinfo0 := BitVec.ofNat 64 s.params.pixCap, errinfo1 := s.nlen, errinfo2 := 0 } := by
  rw [bitChecks_of_long_buffer h, guarded_error, raise, nlenExceedsCapacity, errorStatus_lengthExceedsCapacity]

/-- With a buffer that fits it ends in `INDEX_OUT_OF_RANGE` when `BITIDX >= NLEN` (R143). -/
theorem guarded_bitChecks_of_bad_index {s : State} (rest : Unit → Result State) (hfit : s.nlen.toNat ≤ s.params.pixCap)
    (h : s.nlen.toNat ≤ s.bitidx.toNat) :
    guarded (bitChecks s) s rest = .next { s with
      status := 0x36, errinfo0 := s.nlen, errinfo1 := s.bitidx, errinfo2 := 0 } := by
  rw [bitChecks_of_bad_index hfit h, guarded_error, raise, indexOutOfRange, errorStatus_indexOutOfRange]

theorem completeOk_false (s : State) :
    completeOk false s = { s with status := 0x02, errinfo0 := 0, errinfo1 := 0, errinfo2 := 0 } := rfl

/-- Settles O9: NOP is `complete_ok(0)` and nothing else. -/
theorem nopCompletesCleanly : Obligations.NopCompletesCleanly := by
  refine ⟨rfl, fun s => ?_⟩
  rw [exec_nop, completeOk_false]

/-- Settles O10: the two errors of the checks, then the bit that `LsbRead` answers. -/
theorem rdbitReadsTheBit : Obligations.RdbitReadsTheBit := by
  refine ⟨rfl, fun s => ⟨guarded_bitChecks_of_long_buffer _, guarded_bitChecks_of_bad_index _,
    fun v hfit hidx hv => ?_⟩⟩
  rw [exec_rdbit_eq_next.mpr (.inr ⟨hfit, hidx, v, hv, rfl⟩), completeOk_false, lsbOf_eq_ofNat]

/-- Settles O11: the two errors of the checks, then the memory that `LsbWrite` answers, which differs at `BITIDX` only. -/
theorem wrbitWritesTheBit : Obligations.WrbitWritesTheBit := by
  refine ⟨rfl, fun s => ⟨guarded_bitChecks_of_long_buffer _, guarded_bitChecks_of_bad_index _,
    fun old hfit hidx hold => ?_⟩⟩
  have hwrite := lsbWrite_of_some (b := s.bitdat) hold
  refine ⟨_, exec_wrbit_eq_next.mpr (.inr ⟨hfit, hidx, _, hwrite, rfl⟩), ?_, fun a ha => lsbWrite_frame hwrite ha, rfl⟩
  rw [completeOk_pix, Memory.read_write_self, setLsb_eq_withLsb]

end Sys2Proof.Machine
end

section
/-! `Bits` and `Val` (R90, R91) by the last bit, and the laws 1 to 3 and 6 of R95. -/

namespace Sys2Proof.Machine

@[simp] theorem bits_zero (v : Nat) : bits 0 v = [] := rfl

/-- The last bit of `Bits` is the parity, those before it are `Bits` of the half. -/
theorem bits_succ (w v : Nat) : bits (w + 1) v = bits w (v / 2) ++ [BitVec.ofNat 1 (v % 2)] := by
  have hfirst : ∀ j ∈ List.range w,
      BitVec.ofNat 1 (v / 2 ^ (w + 1 - 1 - j) % 2) = BitVec.ofNat 1 (v / 2 / 2 ^ (w - 1 - j) % 2) := by
    intro j hj
    have hexp : w + 1 - 1 - j = (w - 1 - j) + 1 := by have := List.mem_range.mp hj; omega
    rw [hexp, pow_succ', Nat.div_div_eq_div_mul]
  simp only [bits, List.range_succ, List.map_append, List.map_congr_left hfirst]
  simp

/-- R95 law 2. -/
theorem val_bits {w v : Nat} (hv : v < 2 ^ w) : val (bits w v) = v := by
  induction w generalizing v with
  | zero => simp at hv; simp [hv]
  | succ w ih =>
    have hhalf : v / 2 < 2 ^ w := by omega
    rw [bits_succ, val_concat, ih hhalf, BitVec.toNat_ofNat]
    omega

/-- R95 law 6. -/
theorem val_append (s t : List Bit) : val (s ++ t) = val s * 2 ^ t.length + val t := by
  rw [val, List.foldl_append, foldl_val, ← val]

theorem val_lt_two_pow (s : List Bit) : val s < 2 ^ s.length := by
  induction s using List.reverseRecOn with
  | nil => simp
  | append_singleton s b ih =>
    have hb := b.isLt
    rw [val_concat, List.length_append, List.length_singleton, pow_succ]
    omega

/-- R95 law 3. -/
theorem bits_val (s : List Bit) : bits s.length (val s) = s := by
  induction s using List.reverseRecOn with
  | nil => rfl
  | append_singleton s b ih =>
    have hb := b.isLt
    have hhalf : (2 * val s + b.toNat) / 2 = val s := by omega
    have hparity : (2 * val s + b.toNat) % 2 = b.toNat := by omega
    rw [List.length_append, List.length_singleton, val_concat, bits_succ, hhalf, hparity, ih, BitVec.ofNat_toNat,
      BitVec.setWidth_eq]

/-- Settles O41: the elements are those of the definition, and the inverse laws go by the last bit. -/
theorem bitsAndValAreInverse : Obligations.BitsAndValAreInverse :=
  ⟨fun w v => ⟨bits_length w v, bits_getElem? w v⟩, fun _ _ => val_bits, fun s => ⟨val_lt_two_pow s, bits_val s⟩⟩

end Sys2Proof.Machine
end

section
/-! `PackBits` of a concatenation (R93), and `UnpackBits` of what was packed (R94, R95 law 4). -/

namespace Sys2Proof.Machine

/-- R95 law 5. -/
theorem packBits_append (m : Memory Byte) (p : Nat) (s t : List Bit) :
    packBits m p (s ++ t) = andThen (packBits m p s) fun m' => packBits m' (p + s.length) t := by
  induction s generalizing m p with
  | nil => rfl
  | cons b s ih =>
    simp only [List.cons_append, packBits_cons, andThen_assoc, ih, List.length_cons]
    simp only [Nat.add_assoc, Nat.add_comm 1]

variable {m m' : Memory Byte} {p : Nat} {s : List Bit}

theorem packBits_frame (h : packBits m p s = .next m') {q : Nat} (hq : q < p ∨ p + s.length ≤ q) :
    Memory.read m' q = Memory.read m q := by
  rw [packBits_read h]
  rcases hq with hq | hq
  · rw [if_neg (by omega)]
  · have hpast : s[q - p]? = none := List.getElem?_eq_none (by omega)
    simp [hpast]

/-- R95 law 4: the element at `p + j` was loaded and got bit `j` as its LSB. -/
theorem unpackBits_of_packBits (h : packBits m p s = .next m') : unpackBits m' p s.length = .next s := by
  refine unpackBits_eq_next.mpr ⟨rfl, fun j hj => ?_⟩
  obtain ⟨old, hold⟩ := packBits_loaded h j hj
  have hbit : s[j]? = some s[j] := List.getElem?_eq_getElem hj
  refine ⟨setLsb old s[j], ?_, by rw [lsbOf_setLsb, hbit]⟩
  simp [packBits_read h, hbit, hold]

/-- Settles O42. -/
theorem packAndValSplit : Obligations.PackAndValSplit := ⟨packBits_append, val_append⟩

/-- Settles O43: packing answers on loaded positions, and each clause holds of its answer. -/
theorem unpackReturnsWhatWasPacked : Obligations.UnpackReturnsWhatWasPacked := by
  intro m p s hloaded
  obtain ⟨m', hpack⟩ := packBits_of_loaded m p s hloaded
  exact ⟨m', hpack, unpackBits_of_packBits hpack, fun q hq => packBits_frame hpack hq, packBits_sameUpperBits hpack⟩

end Sys2Proof.Machine
end

section
/-! `TextBits` (R92): the text cut at a whole character, and the laws 7 and 8 of R95. -/

namespace Sys2Proof.Machine

theorem textBits_append (cps cps' : List CodePoint) : textBits (cps ++ cps') = textBits cps ++ textBits cps' :=
  List.flatMap_append

theorem textBits_split (cps : List CodePoint) (m : Nat) :
    textBits cps = textBits (cps.take m) ++ textBits (cps.drop m) := by
  rw [← textBits_append, List.take_append_drop]

variable {cps : List CodePoint}

theorem textBits_take_length {m : Nat} (hm : m ≤ cps.length) : (textBits (cps.take m)).length = 8 * m := by
  rw [textBits_length, List.length_take_of_le hm]

/-- R95 law 7. -/
theorem textBits_take {m : Nat} (hm : m ≤ cps.length) : (textBits cps).take (8 * m) = textBits (cps.take m) := by
  rw [textBits_split cps m, List.take_left' (textBits_take_length hm)]

theorem textBits_drop {m : Nat} (hm : m ≤ cps.length) : (textBits cps).drop (8 * m) = textBits (cps.drop m) := by
  rw [textBits_split cps m, List.drop_left' (textBits_take_length hm)]

/-- Element `q` is a bit of character `q div 8` (R92). -/
theorem textBits_getElem?_of_some {q : Nat} {cp : CodePoint} (h : cps[q / 8]? = some cp) :
    (textBits cps)[q]? = some (BitVec.ofNat 1 (cp.toNat / 2 ^ (7 - q % 8) % 2)) := by
  rw [textBits_getElem?, h, Option.bind_some, bits_getElem? 8 _ _ (Nat.mod_lt q (by decide))]

/-- R95 law 8: what is left of the text at `8k` begins with the bits of character `k`. -/
theorem textBits_char {k : Nat} {cp : CodePoint} (h : cps[k]? = some cp) :
    ((textBits cps).drop (8 * k)).take 8 = bits 8 cp.toNat := by
  obtain ⟨hk, hcp⟩ := List.getElem?_eq_some_iff.mp h
  rw [textBits_drop hk.le, List.drop_eq_getElem_cons hk, hcp, textBits_cons, List.take_left' (bits_length 8 _)]

/-- Settles O44: the text is cut at a whole character; a code point up to 255 is the value of its eight bits. -/
theorem textBitsSpellTheText : Obligations.TextBitsSpellTheText := by
  intro cps
  refine ⟨textBits_length cps, fun _ _ => textBits_getElem?_of_some, fun _ => textBits_take, fun k cp hk => ?_⟩
  have hchar := textBits_char hk
  refine ⟨hchar, fun hcp => ?_⟩
  rw [hchar, val_bits (by omega)]

end Sys2Proof.Machine
end

section
/-! ENCODE behind its checks (R100, R101): the errors in their order (R148), and the refusals of elements never written (R108). -/

namespace Sys2Proof.Machine

variable {s : State}

/-- A failing check of ENCODE is all it does: it raises (R147). -/
theorem exec_encode_of_error {e : FatalError} (h : encodeChecks s = .next (.error e)) :
    exec .encode s = .next (raise e s) := exec_encode_eq_next.mpr (.inl ⟨e, h, rfl⟩)

/-- A refusal in the checks of ENCODE is its answer. -/
theorem exec_encode_of_checks_refused {r : Refusal} (h : encodeChecks s = .refused r) : exec .encode s = .refused r := by
  change execEncode s = _
  rw [execEncode, h, guarded_refused]

/-- A refusal in the embedding is the answer of an ENCODE that has passed its checks. -/
theorem exec_encode_of_embed_refused {r : Refusal} {cps : List CodePoint} (hok : encodeChecks s = .next (.ok cps))
    (h : embed s.pix (encodeSize s) cps = .refused r) : exec .encode s = .refused r := by
  change execEncode s = _
  rw [execEncode, hok, guarded_ok, h, andThen_refused]

/-- The character check raises at the lowest code point above 255 (R101, R142). -/
theorem encodeChecks_of_offender {k : Nat} {cp : CodePoint} (hfit : s.nlen.toNat ≤ s.params.pixCap)
    (htext : s.tlen.toNat ≤ s.params.txtCap) (hheader : 64 ≤ s.nlen.toNat) (hk : k < s.tlen.toNat)
    (hprefix : TextPrefixReady s k) (hread : Memory.read s.txt k = some cp) (hcp : 255 < cp.toNat) :
    encodeChecks s = .next (.error (outOfRangeChar cp k)) := by
  have hscan := scanText_of_offender (k := 0) hk (by simpa [TextPrefixReady] using hprefix) (by simpa using hread) hcp
  rwa [encodeChecks_eq_scan hfit htext hheader, ← Nat.zero_add k]

/-- The character check refuses at the lowest element of the text that was never written (R172). -/
theorem encodeChecks_of_unwritten {k : Nat} (hfit : s.nlen.toNat ≤ s.params.pixCap)
    (htext : s.tlen.toNat ≤ s.params.txtCap) (hheader : 64 ≤ s.nlen.toNat) (hk : k < s.tlen.toNat)
    (hprefix : TextPrefixReady s k) (hread : Memory.read s.txt k = none) :
    encodeChecks s = .refused (.unwritten .txt k) := by
  have hscan := scanText_of_unwritten (k := 0) hk (by simpa [TextPrefixReady] using hprefix) (by simpa using hread)
  rwa [encodeChecks_eq_scan hfit htext hheader, ← Nat.zero_add k]

/-- A text whose characters can all be read and encoded passes the scan. -/
theorem exists_scanText_eq_ok {m : Memory CodePoint} {n k : Nat}
    (h : ∀ j, j < n → ∃ cp, Memory.read m (k + j) = some cp ∧ cp.toNat ≤ 255) :
    ∃ cps, scanText m n k = .next (.ok cps) := by
  refine ⟨(List.range n).map fun j => (Memory.read m (k + j)).getD 0, scanText_eq_ok.mpr ⟨by simp, fun j hj => ?_⟩⟩
  obtain ⟨cp, hread, hcp⟩ := h j hj
  exact ⟨cp, hread, hcp, by simp [hj, hread]⟩

/-- Lengths that fit and a text that can be encoded pass the checks of ENCODE (R100, R101). -/
theorem exists_encodeChecks_eq_ok (hfit : s.nlen.toNat ≤ s.params.pixCap) (htext : s.tlen.toNat ≤ s.params.txtCap)
    (hheader : 64 ≤ s.nlen.toNat) (hready : TextPrefixReady s s.tlen.toNat) :
    ∃ cps, encodeChecks s = .next (.ok cps) := by
  rw [encodeChecks_eq_scan hfit htext hheader]
  exact exists_scanText_eq_ok (by simpa [TextPrefixReady] using hready)

/-- Embedding refuses at the lowest of its positions that was never written (R172). -/
theorem embed_of_unwritten {pix : Memory Byte} {bs p : Nat} {cps : List CodePoint} (hb : bs ≤ 8 * cps.length)
    (hp : p < 64 + bs) (hloaded : ∀ q, q < p → ∃ v, Memory.read pix q = some v) (hnone : Memory.read pix p = none) :
    embed pix bs cps = .refused (.unwritten .pix p) := by
  rcases Nat.lt_or_ge p 64 with hheader | hpayload
  · have hrefused := packBits_of_unwritten pix 0 p (bits 64 bs) (by rwa [bits_length])
      (by simpa using hloaded) (by simpa using hnone)
    rw [embed, hrefused, andThen_refused, Nat.zero_add]
  · obtain ⟨m, hm⟩ := packBits_of_loaded pix 0 (bits 64 bs) fun j hj => by
      rw [bits_length] at hj
      exact hloaded _ (by omega)
    have hframe (q : Nat) (hq : 64 ≤ q) : Memory.read m q = Memory.read pix q :=
      packBits_frame hm (.inr (by rwa [bits_length, Nat.zero_add]))
    have hrefused := packBits_of_unwritten m 64 (p - 64) ((textBits cps).take bs)
      (by rw [List.length_take, textBits_length]; omega)
      (fun i hi => by rw [hframe _ (Nat.le_add_right 64 i)]; exact hloaded _ (by omega))
      (by rwa [Nat.add_sub_cancel' hpayload, hframe p hpayload])
    rw [embed, hm, andThen_next, hrefused, Nat.add_sub_cancel' hpayload]

/-- Settles O14: each clause is the first failing check, and a failing check raises. -/
theorem encodeRaisesInOrder : Obligations.EncodeRaisesInOrder := by
  refine fun s => ⟨fun hlong => ?_, fun hfit hlong => ?_, fun hfit htext hshort => ?_,
    fun k cp hfit htext hheader hk hprefix hread hcp => ?_⟩
  · rw [exec_encode_of_error (encodeChecks_of_long_buffer hlong), raise, nlenExceedsCapacity,
      errorStatus_lengthExceedsCapacity]
  · rw [exec_encode_of_error (encodeChecks_of_long_text hfit hlong), raise, tlenExceedsCapacity,
      errorStatus_lengthExceedsCapacity]
  · rw [exec_encode_of_error (encodeChecks_of_short_buffer hfit htext hshort), raise, bufferTooSmall,
      errorStatus_bufferTooSmall]
  · rw [exec_encode_of_error (encodeChecks_of_offender hfit htext hheader hk hprefix hread hcp), raise, outOfRangeChar,
      errorStatus_outOfRangeChar]

/-- Settles O15: the scan of the text refuses before anything is embedded, and after it the embedding does. -/
theorem encodeRefusesUnwritten : Obligations.EncodeRefusesUnwritten := by
  refine fun s hfit htext hheader => ⟨fun k hk hprefix hread => ?_, fun p hready hp hloaded hread => ?_⟩
  · exact exec_encode_of_checks_refused (encodeChecks_of_unwritten hfit htext hheader hk hprefix hread)
  · obtain ⟨cps, hok⟩ := exists_encodeChecks_eq_ok hfit htext hheader hready
    exact exec_encode_of_embed_refused hok
      (embed_of_unwritten (encodeSize_le_of_checked hok) hp (fun q => hloaded q q.zero_le) hread)

end Sys2Proof.Machine
end

section
/-! ENCODE past its checks: the closed form of its result (R106), its bounded change (R107), and what it does not read (R109). -/

namespace Sys2Proof.Machine

variable {pix pix' : Memory Byte} {bs : Nat} {cps : List CodePoint}

theorem embed_read_header (h : embed pix bs cps = .next pix') (hb : bs ≤ 8 * cps.length) {p : Nat} {old : Byte}
    (hp : p < 64) (hold : Memory.read pix p = some old) :
    Memory.read pix' p = some (withLsb old (headerBit bs p)) := by
  rw [embed_read h hb, if_pos hp, hold, Option.map_some, setLsb_eq_withLsb]

theorem embed_read_payload (h : embed pix bs cps = .next pix') (hb : bs ≤ 8 * cps.length) {p : Nat} {old : Byte}
    {cp : CodePoint} (hlo : 64 ≤ p) (hhi : p < 64 + bs) (hold : Memory.read pix p = some old)
    (hcp : cps[(p - 64) / 8]? = some cp) : Memory.read pix' p = some (withLsb old (payloadBit cp p)) := by
  rw [embed_read h hb, if_neg (by omega), if_pos hhi, hcp, Option.bind_some, hold, Option.map_some, setLsb_eq_withLsb]

/-- The characters ENCODE has checked are the elements of the text (R101). -/
theorem encodeChecks_getElem? {s : State} (h : encodeChecks s = .next (.ok cps)) {k : Nat} (hk : k < s.tlen.toNat) :
    cps[k]? = Memory.read s.txt k := by
  obtain ⟨-, -, -, hscan⟩ := encodeChecks_eq_ok.mp h
  obtain ⟨cp, hread, -, hcp⟩ := (scanText_eq_ok.mp hscan).2 k hk
  rw [hcp, ← hread, Nat.zero_add]

/-- ENCODE truncates exactly when the buffer has room for fewer bits than the text (R102). -/
theorem truncates_iff (s : State) : truncates s = true ↔ s.nlen.toNat - 64 < 8 * s.tlen.toNat := by
  have hsize : encodeSize s = min (s.nlen.toNat - 64) (8 * s.tlen.toNat) := rfl
  have hwant : want s = 8 * s.tlen.toNat := rfl
  rw [truncates, decide_eq_true_eq, hsize, hwant]
  omega

theorem okStatus_truncates (s : State) :
    okStatus (truncates s) = if s.nlen.toNat - 64 < 8 * s.tlen.toNat then 0x0A else 0x02 :=
  if_congr (truncates_iff s) rfl rfl

/-- Settles O13: the checks pass and the positions are loaded, so ENCODE embeds, element by element as R106 says. -/
theorem encodeEmbedsTheText : Obligations.EncodeEmbedsTheText := by
  intro s bs hready hbs
  obtain rfl : bs = encodeSize s := hbs
  obtain ⟨cps, hok⟩ := exists_encodeChecks_eq_ok hready.bufferFits hready.textFits hready.headerFits hready.text
  obtain ⟨pix', hembed⟩ := embed_of_loaded s.pix (encodeSize s) cps fun p => hready.pixels p p.zero_le
  have hexec := exec_encode_eq_next.mpr (.inr ⟨cps, pix', hok, hembed, rfl⟩)
  have hb := encodeSize_le_of_checked hok
  refine ⟨_, hexec, fun p old => embed_read_header hembed hb, fun p old cp hlo hhi hold hcp => ?_,
    exec_encode_pix hexec, ofNat_encodeSize_toNat s, okStatus_truncates s, rfl⟩
  have hk : (p - 64) / 8 < s.tlen.toNat := by
    have := encodeSize_le_want s
    omega
  exact embed_read_payload hembed hb hlo hhi hold ((encodeChecks_getElem? hok hk).trans hcp)

/-! ### The bounded change (R107) -/

/-- Elements of which one part agrees both have a value, or neither does. -/
theorem isSome_eq_of_map_eq {α β : Type} {f : α → β} {x y : Option α} (h : x.map f = y.map f) : x.isSome = y.isSome := by
  simpa using congrArg Option.isSome h

theorem SameUpperBits.upper_eq (h : SameUpperBits pix pix') {p : Nat} {old new : Byte}
    (hold : Memory.read pix p = some old) (hnew : Memory.read pix' p = some new) :
    new.extractLsb' 1 7 = old.extractLsb' 1 7 := by
  simpa [hold, hnew] using h p

theorem upper_toNat (v : Byte) : (v.extractLsb' 1 7).toNat = v.toNat / 2 := by
  have := v.isLt
  simp [Nat.shiftRight_eq_div_pow]
  omega

/-- Bytes with the same bits 7:1 differ by at most 1. -/
theorem toNat_le_succ_of_upper_eq {x y : Byte} (h : x.extractLsb' 1 7 = y.extractLsb' 1 7) : x.toNat ≤ y.toNat + 1 := by
  have hhalf := congrArg BitVec.toNat h
  rw [upper_toNat, upper_toNat] at hhalf
  omega

/-- Settles O16: ENCODE keeps bits 7:1 of every element, which bounds the change of a value by 1. -/
theorem encodeChangesOnlyLsbs : Obligations.EncodeChangesOnlyLsbs := by
  intro s t h
  have hsame := exec_sameUpperBits h
  refine ⟨fun p => isSome_eq_of_map_eq (hsame p), fun p old new hold hnew => ?_, exec_encode_pix h, by rw [exec_encode_frame h]⟩
  have hupper := hsame.upper_eq hold hnew
  exact ⟨hupper, toNat_le_succ_of_upper_eq hupper, toNat_le_succ_of_upper_eq hupper.symm⟩

/-! ### Old LSBs are overwritten (R106, R109) -/

/-- Setting bit 0 reads bits 7:1 only (R81). -/
theorem map_setLsb_congr {x y : Option Byte}
    (h : x.map (fun v => v.extractLsb' 1 7) = y.map (fun v => v.extractLsb' 1 7)) (b : Bit) :
    x.map (setLsb · b) = y.map (setLsb · b) := by
  have hword : (setLsb · b) = (· ++ b) ∘ fun v : Byte => v.extractLsb' 1 7 := funext fun v => setLsb_eq_withLsb v b
  rw [hword, ← Option.map_map, h, Option.map_map]

/-- Embedding the same bits in two buffers that agree on bits 7:1 of a position gives the same byte there. -/
theorem embed_read_congr {m m' : Memory Byte} (hb : bs ≤ 8 * cps.length) (h : embed pix bs cps = .next pix')
    (hm : embed m bs cps = .next m') {p : Nat} (hp : p < 64 + bs)
    (hupper : (Memory.read m p).map (fun v => v.extractLsb' 1 7) = (Memory.read pix p).map (fun v => v.extractLsb' 1 7)) :
    Memory.read m' p = Memory.read pix' p := by
  rw [embed_read hm hb, embed_read h hb]
  simp only [if_pos hp, map_setLsb_congr hupper]

/-- The checks of ENCODE pass on the parameters, the lengths and the text alone (R100, R101). -/
theorem encodeChecks_ok_congr {s s' : State} (hparams : s'.params = s.params) (hnlen : s'.nlen = s.nlen)
    (htlen : s'.tlen = s.tlen) (htxt : ∀ k, k < s.tlen.toNat → Memory.read s'.txt k = Memory.read s.txt k)
    (h : encodeChecks s = .next (.ok cps)) : encodeChecks s' = .next (.ok cps) := by
  rw [encodeChecks_eq_ok] at h ⊢
  rwa [hparams, hnlen, htlen, scanText_congr (m := s.txt) _ _ (by simpa using htxt)]

theorem encodeSize_congr {s s' : State} (hnlen : s'.nlen = s.nlen) (htlen : s'.tlen = s.tlen) :
    encodeSize s' = encodeSize s := by
  simp only [encodeSize, avail, want, bufLen, textLen, hnlen, htlen]

theorem truncates_congr {s s' : State} (hnlen : s'.nlen = s.nlen) (htlen : s'.tlen = s.tlen) :
    truncates s' = truncates s := by
  rw [Bool.eq_iff_iff, truncates_iff, truncates_iff, hnlen, htlen]

/-- Settles O17: the checks and the size are those of `s`, the positions are loaded because those of `s` were, and embedding
reads only bits 7:1. -/
theorem encodeIgnoresOldLsbs : Obligations.EncodeIgnoresOldLsbs := by
  intro s s' t hparams hnlen htlen htxt hupper h herr
  rcases exec_encode_eq_next.mp h with ⟨e, -, rfl⟩ | ⟨cps, pix', hok, hembed, rfl⟩
  · simp at herr
  have hb := encodeSize_le_of_checked hok
  have hsize := encodeSize_congr hnlen htlen
  obtain ⟨-, -, hheader, -⟩ := encodeChecks_eq_ok.mp hok
  have hbelow {p : Nat} (hp : p < 64 + encodeSize s) := hupper p (hp.trans_le (header_add_encodeSize_le hheader))
  obtain ⟨pix'', hembed'⟩ := embed_of_loaded s'.pix (encodeSize s) cps fun p hp => by
    rw [← Option.isSome_iff_exists, isSome_eq_of_map_eq (hbelow hp), Option.isSome_iff_exists]
    exact embed_loaded hembed hb p hp
  refine ⟨_, exec_encode_eq_next.mpr (.inr ⟨cps, pix'', encodeChecks_ok_congr hparams hnlen htlen htxt hok,
    hsize ▸ hembed', rfl⟩), congrArg (BitVec.ofNat 64) hsize, congrArg okStatus (truncates_congr hnlen htlen), fun p hp => ?_⟩
  have hp' : p < 64 + encodeSize s := ofNat_encodeSize_toNat s ▸ hp
  exact embed_read_congr hb hembed hembed' hp' (hbelow hp')

end Sys2Proof.Machine
end

section
/-! The header and the chunks as sums of LSBs (R96, R97, R128), and as functions of the LSBs alone (R134). -/

namespace Sys2Proof.Machine

variable {s : State}

/-- The LSBs of `w` positions from `p` on, as the sum that R128 writes for the header and for a chunk. -/
def lsbSum (s : State) (p w : Nat) : Nat := ((List.range w).map fun j => lsbNat s (p + j) * 2 ^ (w - 1 - j)).sum

theorem lsbSum_succ (s : State) (p w : Nat) : lsbSum s p (w + 1) = lsbNat s p * 2 ^ w + lsbSum s (p + 1) w := by
  have hrest : ∀ j ∈ List.range w,
      lsbNat s (p + (j + 1)) * 2 ^ (w + 1 - 1 - (j + 1)) = lsbNat s (p + 1 + j) * 2 ^ (w - 1 - j) := by
    intro j _
    rw [show p + (j + 1) = p + 1 + j by omega, show w + 1 - 1 - (j + 1) = w - 1 - j by omega]
  simp only [lsbSum, List.range_succ_eq_map, List.map_cons, List.map_map, List.sum_cons, Function.comp_def,
    Nat.succ_eq_add_one, List.map_congr_left hrest]
  simp

theorem headerValue_eq_lsbSum (s : State) : headerValue s = lsbSum s 0 64 := by
  simp [headerValue, lsbSum]

theorem chunkValue_eq_lsbSum (s : State) (k : Nat) : chunkValue s k = lsbSum s (64 + 8 * k) 8 := rfl

theorem lsbOf_toNat_of_read {p : Nat} {v : Byte} (h : Memory.read s.pix p = some v) : (lsbOf v).toNat = lsbNat s p := by
  rw [lsbOf_toNat, lsbNat, h, Option.getD_some]

theorem val_of_unpackBits {p w : Nat} {bs : List Bit} (h : unpackBits s.pix p w = .next bs) : val bs = lsbSum s p w := by
  induction w generalizing p bs with
  | zero => cases h; rfl
  | succ w ih =>
    simp only [unpackBits_succ, andThen_eq_next, lsbRead_eq_next, Host.Outcome.next.injEq] at h
    obtain ⟨b, ⟨v, hv, rfl⟩, bs', hbs', rfl⟩ := h
    have hlen : bs'.length = w := (unpackBits_eq_next.mp hbs').1
    rw [val_cons, ih hbs', hlen, lsbOf_toNat_of_read hv, lsbSum_succ]

theorem readHeader_lt {pix : Memory Byte} {n : Nat} (h : readHeader pix = .next n) : n < 2 ^ 64 := by
  obtain ⟨bs, hbs, rfl⟩ := readHeader_eq_next.mp h
  have hlen : bs.length = 64 := (unpackBits_eq_next.mp hbs).1
  exact hlen ▸ val_lt_two_pow bs

theorem readHeader_of_loaded (h : PixLoaded s 0 64) : readHeader s.pix = .next (headerValue s) := by
  obtain ⟨bs, hbs⟩ := unpackBits_of_loaded s.pix 0 64 fun j hj => h _ (by omega) (by omega)
  exact readHeader_eq_next.mpr ⟨bs, hbs, by rw [headerValue_eq_lsbSum, val_of_unpackBits hbs]⟩

theorem chunk_of_loaded {k : Nat} (h : PixLoaded s (64 + 8 * k) (64 + 8 * k + 8)) :
    chunk s.pix k = .next (BitVec.ofNat 8 (chunkValue s k)) ∧ chunkValue s k < 256 := by
  obtain ⟨bs, hbs⟩ := unpackBits_of_loaded s.pix (64 + 8 * k) 8 fun j hj => h _ (by omega) (by omega)
  have hval : val bs = chunkValue s k := by rw [chunkValue_eq_lsbSum, val_of_unpackBits hbs]
  have hlen : bs.length = 8 := (unpackBits_eq_next.mp hbs).1
  have hlt := val_lt_two_pow bs
  rw [hlen, hval] at hlt
  exact ⟨chunk_eq_next.mpr ⟨bs, hbs, by rw [hval]⟩, hlt⟩

theorem PixLoaded.mono {a b c d : Nat} (h : PixLoaded s a d) (hab : a ≤ b) (hcd : c ≤ d) : PixLoaded s b c :=
  fun p hb hc => h p (hab.trans hb) (hc.trans_le hcd)

/-! ### The elements that are read -/

variable {m m' : Memory Byte}

theorem readHeader_congr (h : ∀ p, p < 64 → (Memory.read m' p).map lsbOf = (Memory.read m p).map lsbOf) :
    readHeader m' = readHeader m := by
  rw [readHeader, readHeader, unpackBits_congr 0 Config.headerBits fun j hj => h _ (by simpa using hj)]

theorem chunk_congr {k : Nat}
    (h : ∀ p, p < 64 + 8 * k + 8 → (Memory.read m' p).map lsbOf = (Memory.read m p).map lsbOf) :
    chunk m' k = chunk m k := by
  rw [chunk, chunk, unpackBits_congr (chunkStart k) Config.charBits fun j hj => h _ (Nat.add_lt_add_left hj _)]

/-- The header refuses at its lowest element that was never written (R172). -/
theorem readHeader_of_unwritten {p : Nat} (hp : p < 64) (hloaded : PixLoaded s 0 p) (hnone : Memory.read s.pix p = none) :
    readHeader s.pix = .refused (.unwritten .pix p) := by
  have hrefused := unpackBits_of_unwritten s.pix 0 64 p hp (fun i hi => hloaded _ (by omega) (by omega))
    (by rwa [Nat.zero_add])
  rw [readHeader, hrefused, andThen_refused, Nat.zero_add]

/-- The chunk of a position refuses there when its positions before it are loaded. -/
theorem chunk_of_unwritten {p : Nat} (hp : 64 ≤ p) (hloaded : PixLoaded s 64 p) (hnone : Memory.read s.pix p = none) :
    chunk s.pix ((p - 64) / 8) = .refused (.unwritten .pix p) := by
  have hpos : 64 + 8 * ((p - 64) / 8) + (p - 64) % 8 = p := by omega
  have hrefused := unpackBits_of_unwritten s.pix (64 + 8 * ((p - 64) / 8)) 8 ((p - 64) % 8) (by omega)
    (fun i hi => hloaded _ (by omega) (by omega)) (by rwa [hpos])
  rw [chunk, chunkStart, hrefused, andThen_refused, hpos]

end Sys2Proof.Machine
end

section
/-! DECODE (R120): its errors (R148), its refusals (R133), and the closed form of its result (R128). -/

namespace Sys2Proof.Machine

variable {s t : State}

/-- A failing check of DECODE is all it does: it raises (R147). -/
theorem exec_decode_of_error {e : FatalError} (h : decodeChecks s = .next (.error e)) :
    exec .decode s = .next (raise e s) := exec_decode_eq_next.mpr (.inl ⟨e, h, rfl⟩)

theorem exec_decode_of_header_refused {r : Refusal} (hok : decodeChecks s = .next (.ok ()))
    (h : readHeader s.pix = .refused r) : exec .decode s = .refused r := by
  change execDecode s = _
  rw [execDecode, hok, guarded_ok, h, andThen_refused]

theorem exec_decode_of_store_refused {r : Refusal} {n : Nat} (hok : decodeChecks s = .next (.ok ()))
    (hn : readHeader s.pix = .next n) (h : storeChunks s.params.outCap s.pix (outCount s n) 0 s.out = .refused r) :
    exec .decode s = .refused r := by
  change execDecode s = _
  rw [execDecode, hok, guarded_ok, hn, andThen_next, h, andThen_refused]

/-- Settles O20: each clause is the first failing check, and a failing check raises. -/
theorem decodeRaisesInOrder : Obligations.DecodeRaisesInOrder := by
  refine fun s => ⟨fun hlong => ?_, fun hfit hshort => ?_⟩
  · rw [exec_decode_of_error (decodeChecks_of_long_buffer hlong), raise, nlenExceedsCapacity,
      errorStatus_lengthExceedsCapacity]
  · rw [exec_decode_of_error (decodeChecks_of_short_buffer hfit hshort), raise, bufferTooSmall,
      errorStatus_bufferTooSmall]

/-- Settles O21: the header refuses before any chunk is taken, and after it the chunk of the first unwritten position does;
R6 keeps the chunks before it within `OUT`. -/
theorem decodeRefusesUnwritten : Obligations.DecodeRefusesUnwritten := by
  intro s hlegal hfit hheader
  have hok := decodeChecks_eq_ok.mpr ⟨hfit, hheader⟩
  refine ⟨fun p hp hloaded hnone => exec_decode_of_header_refused hok (readHeader_of_unwritten hp hloaded hnone),
    fun p hloaded64 hlo hhi hloaded hnone => ?_⟩
  have hcap : outCount s (headerValue s) ≤ s.params.outCap := outCount_le_cap hlegal hfit hheader _
  have hk : (p - 64) / 8 < outCount s (headerValue s) := by
    change (p - 64) / 8 < decodedLength s
    omega
  refine exec_decode_of_store_refused hok (readHeader_of_loaded hloaded64)
    (storeChunks_of_refused _ hk (fun i hi => ?_) ?_ (by rwa [Nat.zero_add]))
  · rw [Nat.zero_add]
    exact ⟨_, (chunk_of_loaded (hloaded.mono (by omega) (by omega))).1⟩
  · rw [Nat.zero_add]
    exact chunk_of_unwritten hlo hloaded hnone

/-- `t` is what a DECODE of `s` leaves that passed its checks and read the header value `n` (R120, R128). -/
structure Extracts (s : State) (n : Nat) (t : State) : Prop where
  bufferFits : s.nlen.toNat ≤ s.params.pixCap
  headerFits : 64 ≤ s.nlen.toNat
  header : readHeader s.pix = .next n
  outFits : outCount s n ≤ s.params.outCap
  text : ∀ k, k < outCount s n → ∃ c, chunk s.pix k = .next c ∧ Memory.read t.out k = some c
  binsize : t.binsize.toNat = n
  outlen : t.outlen.toNat = outCount s n
  visible : t.visible = State.visible { s with
    out := t.out, outlen := t.outlen, binsize := t.binsize, status := 0x02, errinfo0 := 0, errinfo1 := 0, errinfo2 := 0 }

theorem Extracts.status {n : Nat} (h : Extracts s n t) : t.status = 0x02 := congrArg State.status h.visible
theorem Extracts.errinfo0 {n : Nat} (h : Extracts s n t) : t.errinfo0 = 0 := congrArg State.errinfo0 h.visible
theorem Extracts.errinfo1 {n : Nat} (h : Extracts s n t) : t.errinfo1 = 0 := congrArg State.errinfo1 h.visible
theorem Extracts.errinfo2 {n : Nat} (h : Extracts s n t) : t.errinfo2 = 0 := congrArg State.errinfo2 h.visible

/-- Chunks that have been stored had elements of `OUT` to go to. -/
theorem count_le_cap_of_storeChunks {cap n : Nat} {pix out out' : Memory Byte}
    (h : storeChunks cap pix n 0 out = .next out') : n ≤ cap := by
  cases n with
  | zero => exact Nat.zero_le cap
  | succ n =>
    obtain ⟨c, -, -, hn⟩ := (storeChunks_read h n).1 (Nat.zero_le n) (by omega)
    exact hn

/-- Everything DECODE can answer: it raises, or it extracts what its header announces. -/
theorem exec_decode_raises_or_extracts (h : exec .decode s = .next t) :
    (∃ e, decodeChecks s = .next (.error e) ∧ t = raise e s) ∨ ∃ n, Extracts s n t := by
  rcases exec_decode_eq_next.mp h with herror | ⟨n, out', hfit, hheader, hn, hstore, rfl⟩
  · exact .inl herror
  · refine .inr ⟨n, hfit, hheader, hn, count_le_cap_of_storeChunks hstore, fun k hk => ?_,
      Nat.mod_eq_of_lt (readHeader_lt hn), ofNat_outCount_toNat s n, rfl⟩
    obtain ⟨c, hc, hread, -⟩ := (storeChunks_read hstore k).1 (Nat.zero_le k) (by omega)
    exact ⟨c, hc, hread⟩

/-- DECODE completes when its checks pass, the header and the chunks can be read, and `OUT` can hold them. -/
theorem exists_exec_decode {n : Nat} (hfit : s.nlen.toNat ≤ s.params.pixCap) (hheader : 64 ≤ s.nlen.toNat)
    (hn : readHeader s.pix = .next n) (hcap : outCount s n ≤ s.params.outCap)
    (hchunks : ∀ k, k < outCount s n → ∃ c, chunk s.pix k = .next c) :
    ∃ t, exec .decode s = .next t ∧ Extracts s n t := by
  obtain ⟨out', hstore⟩ := storeChunks_of_chunks (cap := s.params.outCap) (n := outCount s n) (k := 0) s.out
    (fun q _ hq => hchunks q (by omega)) (.inr (by omega))
  have hexec := exec_decode_eq_next.mpr (.inr ⟨n, out', hfit, hheader, hn, hstore, rfl⟩)
  rcases exec_decode_raises_or_extracts hexec with ⟨e, he, -⟩ | ⟨n', h⟩
  · simp [decodeChecks_eq_ok.mpr ⟨hfit, hheader⟩] at he
  · obtain rfl : n = n' := Host.Outcome.next.inj (hn.symm.trans h.header)
    exact ⟨_, hexec, h⟩

/-- Settles O19: the header and the chunks are loaded, so each is the sum that R128 writes. -/
theorem decodeExtractsTheText : Obligations.DecodeExtractsTheText := by
  intro s hready
  have hchunk {k : Nat} (hk : k < decodedLength s) := chunk_of_loaded (hready.payload.mono
    (b := 64 + 8 * k) (c := 64 + 8 * k + 8) (by omega) (by omega))
  obtain ⟨t, hexec, h⟩ := exists_exec_decode hready.bufferFits hready.headerFits (readHeader_of_loaded hready.header)
    (outCount_le_cap hready.capacities hready.bufferFits hready.headerFits _) fun k hk => ⟨_, (hchunk hk).1⟩
  refine ⟨t, hexec, h.binsize, h.outlen, fun k hk => ⟨?_, (hchunk hk).2⟩,
    fun k hk => exec_decode_out hexec k (h.outlen.trans_le hk), h.visible⟩
  obtain ⟨c, hc, hread⟩ := h.text k hk
  rw [hread, Host.Outcome.next.inj (hc.symm.trans (hchunk hk).1)]

/-! ### What DECODE depends on (R129, R134) -/

theorem decodeChecks_congr {s' : State} (hparams : s'.params = s.params) (hnlen : s'.nlen = s.nlen) :
    decodeChecks s' = decodeChecks s := by
  unfold decodeChecks checkBufferFits checkHeaderFits bufLen
  rw [hparams, hnlen]

theorem outCount_congr {s' : State} (hnlen : s'.nlen = s.nlen) (n : Nat) : outCount s' n = outCount s n := by
  simp only [outCount, chunkCount, avail, bufLen, hnlen]

/-- Elements with the same parity have the same LSB (R80). -/
theorem map_lsbOf_congr {x y : Option Byte} (h : x.map (fun v => v.toNat % 2) = y.map (fun v => v.toNat % 2)) :
    x.map lsbOf = y.map lsbOf := by
  have hlsb : lsbOf = BitVec.ofNat 1 ∘ fun v : Byte => v.toNat % 2 := funext lsbOf_eq_ofNat
  rw [hlsb, ← Option.map_map, h, Option.map_map]

/-- A state with the parameters, `NLEN` and LSBs of one that DECODE extracts from is decoded to the same text. -/
theorem Extracts.transfer {s' : State} {n : Nat} (h : Extracts s n t) (hparams : s'.params = s.params)
    (hnlen : s'.nlen = s.nlen)
    (hpix : ∀ p, p < s.nlen.toNat → (Memory.read s'.pix p).map lsbOf = (Memory.read s.pix p).map lsbOf) :
    ∃ t', exec .decode s' = .next t' ∧ Extracts s' n t' ∧
      ∀ k, k < outCount s n → Memory.read t'.out k = Memory.read t.out k := by
  have hcount := outCount_congr hnlen n
  have hheader : readHeader s'.pix = readHeader s.pix := readHeader_congr fun p hp => hpix p (hp.trans_le h.headerFits)
  have hchunk {k : Nat} (hk : k < outCount s n) : chunk s'.pix k = chunk s.pix k := by
    have := header_add_chunks_le h.headerFits n
    exact chunk_congr fun p hp => hpix p (by omega)
  obtain ⟨t', hexec, h'⟩ := exists_exec_decode (s := s') (n := n) (by rw [hparams, hnlen]; exact h.bufferFits)
    (hnlen ▸ h.headerFits) (hheader.trans h.header) (by rw [hparams, hcount]; exact h.outFits) fun k hk => by
      rw [hcount] at hk
      obtain ⟨c, hc, -⟩ := h.text k hk
      exact ⟨c, (hchunk hk).trans hc⟩
  refine ⟨t', hexec, h', fun k hk => ?_⟩
  obtain ⟨c, hc, hread⟩ := h.text k hk
  obtain ⟨c', hc', hread'⟩ := h'.text k (hcount ▸ hk)
  rw [hread, hread', Host.Outcome.next.inj (hc'.symm.trans ((hchunk hk).trans hc))]

/-- Settles O22: the checks read the parameters and `NLEN`, and what follows them reads the LSBs below `NLEN`. -/
theorem decodeDependsOnlyOnLsbs : Obligations.DecodeDependsOnlyOnLsbs := by
  intro s s' t hparams hnlen hparity h
  refine ⟨by rw [exec_decode_frame h]; exact ⟨rfl, rfl, rfl, rfl, rfl, rfl⟩, ?_⟩
  rcases exec_decode_raises_or_extracts h with ⟨e, he, rfl⟩ | ⟨n, hext⟩
  · have he' : decodeChecks s' = .next (.error e) := (decodeChecks_congr hparams hnlen).trans he
    exact ⟨_, exec_decode_of_error he', rfl, rfl, rfl, rfl, fun herr => by simp at herr⟩
  · obtain ⟨t', hexec, hext', htext⟩ := hext.transfer hparams hnlen fun p hp => map_lsbOf_congr (hparity p hp)
    refine ⟨t', hexec, hext'.status.trans hext.status.symm, hext'.errinfo0.trans hext.errinfo0.symm,
      hext'.errinfo1.trans hext.errinfo1.symm, hext'.errinfo2.trans hext.errinfo2.symm, fun _ => ⟨?_, ?_, fun k hk => ?_⟩⟩
    · exact BitVec.eq_of_toNat_eq (hext'.binsize.trans hext.binsize.symm)
    · exact BitVec.eq_of_toNat_eq (by rw [hext'.outlen, hext.outlen, outCount_congr hnlen])
    · exact htext k (hext.outlen ▸ hk)

/-- Settles O23: DECODE writes none of what its result depends on, so the second run extracts the same text; it stores nothing
from `OUTLEN` on. -/
theorem decodeTwiceIsTheSame : Obligations.DecodeTwiceIsTheSame := by
  intro s t h herr
  have hsame := exec_sameOperands h
  have hpix : t.pix = s.pix := exec_pix h (by decide) (by decide)
  obtain ⟨-, u, hexec, hstatus, -, -, -, hresult⟩ :=
    decodeDependsOnlyOnLsbs s t t hsame.params hsame.nlen (fun p _ => by rw [hpix]) h
  obtain ⟨hbinsize, houtlen, htext⟩ := hresult herr
  refine ⟨u, hexec, hpix, (exec_pix hexec (by decide) (by decide)).trans hpix, houtlen, hbinsize, hstatus, fun k => ?_⟩
  rcases Nat.lt_or_ge k t.outlen.toNat with hk | hk
  · exact htext k hk
  · exact exec_decode_out hexec k (houtlen ▸ hk)

end Sys2Proof.Machine
end

section
/-! DECODE after ENCODE (R130 to R132): what was embedded is what is extracted, up to the size that was embedded. -/

namespace Sys2Proof.Machine

variable {pix pix' : Memory Byte} {bs : Nat} {cps : List CodePoint}

@[simp] theorem lsbOf_withLsb (old : Byte) (b : Bit) : lsbOf (withLsb old b) = b := by
  rw [← setLsb_eq_withLsb, lsbOf_setLsb]

/-- The header reads back the size that was embedded (R95 laws 2 and 4). -/
theorem readHeader_of_embed (h : embed pix bs cps = .next pix') (hb : bs ≤ 8 * cps.length) (hbs : bs < 2 ^ 64) :
    readHeader pix' = .next bs := by
  refine readHeader_eq_next.mpr
    ⟨bits 64 bs, unpackBits_eq_next.mpr ⟨bits_length 64 bs, fun j hj => ?_⟩, (val_bits hbs).symm⟩
  obtain ⟨old, hold⟩ := embed_loaded h hb j (by omega)
  refine ⟨_, by rw [Nat.zero_add]; exact embed_read_header h hb hj hold, ?_⟩
  rw [lsbOf_withLsb, bits_getElem? 64 bs j hj, headerBit]

/-- A chunk that was embedded whole reads back its character (R95 laws 2, 4 and 8). -/
theorem chunk_of_embed (h : embed pix bs cps = .next pix') (hb : bs ≤ 8 * cps.length) {k : Nat} {cp : CodePoint}
    (hk : k < bs / 8) (hcp : cps[k]? = some cp) (hsmall : cp.toNat ≤ 255) : chunk pix' k = .next (cp.setWidth 8) := by
  refine chunk_eq_next.mpr ⟨bits 8 cp.toNat, unpackBits_eq_next.mpr ⟨bits_length 8 _, fun j hj => ?_⟩, ?_⟩
  · obtain ⟨old, hold⟩ := embed_loaded h hb (64 + 8 * k + j) (by omega)
    have hchar : (64 + 8 * k + j - 64) / 8 = k := by omega
    have hbit : (64 + 8 * k + j - 64) % 8 = j := by omega
    refine ⟨_, embed_read_payload h hb (by omega) (by omega) hold (by rwa [hchar]), ?_⟩
    rw [lsbOf_withLsb, bits_getElem? 8 _ j hj, payloadBit, hbit]
  · rw [val_bits (by omega), BitVec.ofNat_toNat]

variable {s t u : State}

/-- Every character that ENCODE has checked is an element of the text of at most 255 (R101). -/
theorem encodeChecks_char (h : encodeChecks s = .next (.ok cps)) {k : Nat} (hk : k < s.tlen.toNat) :
    ∃ cp, Memory.read s.txt k = some cp ∧ cp.toNat ≤ 255 ∧ cps[k]? = some cp := by
  obtain ⟨-, -, -, hscan⟩ := encodeChecks_eq_ok.mp h
  simpa using (scanText_eq_ok.mp hscan).2 k hk

/-- DECODE takes exactly the whole characters that ENCODE embedded (R102, R124). -/
theorem outCount_encodeSize (hnlen : u.nlen = s.nlen) : outCount u (encodeSize s) = encodeSize s / 8 := by
  have hcount : outCount u (encodeSize s) = min (encodeSize s / 8) ((s.nlen.toNat - 64) / 8) := by rw [← hnlen]; rfl
  have hle := encodeSize_le_avail s
  omega

/-- An ENCODE without error has embedded the text it checked. -/
theorem exec_encode_embeds (h : exec .encode s = .next t) (herr : t.err = false) :
    ∃ cps, encodeChecks s = .next (.ok cps) ∧ embed s.pix (encodeSize s) cps = .next t.pix ∧
      t.status = okStatus (truncates s) := by
  rcases exec_encode_eq_next.mp h with ⟨e, -, rfl⟩ | ⟨cps, pix', hok, hembed, rfl⟩
  · simp at herr
  · exact ⟨cps, hok, hembed, rfl⟩

/-- The round trip of R130 and R131 in one: DECODE returns the whole characters that ENCODE embedded, from any state with the
parameters, the length and the embedded elements. -/
theorem exec_decode_after_encode (h : exec .encode s = .next t) (herr : t.err = false) (hparams : u.params = s.params)
    (hnlen : u.nlen = s.nlen) (hpix : ∀ p, p < 64 + encodeSize s → Memory.read u.pix p = Memory.read t.pix p)
    (hcap : encodeSize s / 8 ≤ s.params.outCap) :
    ∃ v, exec .decode u = .next v ∧ v.status = 0x02 ∧ v.binsize.toNat = encodeSize s ∧
      v.outlen.toNat = encodeSize s / 8 ∧
      ∀ k, k < encodeSize s / 8 → ∃ cp, Memory.read s.txt k = some cp ∧ cp.toNat ≤ 255 ∧
        Memory.read v.out k = some (cp.setWidth 8) := by
  obtain ⟨cps, hok, hembed, -⟩ := exec_encode_embeds h herr
  obtain ⟨hfit, -, hheader, -⟩ := encodeChecks_eq_ok.mp hok
  have hb := encodeSize_le_of_checked hok
  have hcount := outCount_encodeSize hnlen
  have hread : readHeader u.pix = .next (encodeSize s) := by
    rw [readHeader_congr (m := t.pix) fun p hp => by rw [hpix p (by omega)]]
    exact readHeader_of_embed hembed hb (encodeSize_lt s)
  have hchar {k : Nat} (hk : k < encodeSize s / 8) : ∃ cp, Memory.read s.txt k = some cp ∧ cp.toNat ≤ 255 ∧
      chunk u.pix k = .next (cp.setWidth 8) := by
    have hwant := encodeSize_le_want s
    obtain ⟨cp, htxt, hsmall, hcp⟩ := encodeChecks_char hok (k := k) (by omega)
    rw [chunk_congr (m := t.pix) fun p hp => by rw [hpix p (by omega)]]
    exact ⟨cp, htxt, hsmall, chunk_of_embed hembed hb hk hcp hsmall⟩
  obtain ⟨v, hexec, hext⟩ := exists_exec_decode (by rwa [hparams, hnlen]) (hnlen ▸ hheader) hread
    (by rwa [hparams, hcount]) fun k hk => by
      obtain ⟨cp, -, -, hc⟩ := hchar (hcount ▸ hk)
      exact ⟨_, hc⟩
  refine ⟨v, hexec, hext.status, hext.binsize, hext.outlen.trans hcount, fun k hk => ?_⟩
  obtain ⟨cp, htxt, hsmall, hc⟩ := hchar hk
  obtain ⟨c, hc', hout⟩ := hext.text k (hcount ▸ hk)
  exact ⟨cp, htxt, hsmall, by rw [hout, Host.Outcome.next.inj (hc'.symm.trans hc)]⟩

/-- R6 leaves room in `OUT` for the characters of an ENCODE without error (R124). -/
theorem encodeSize_div_le_cap (hlegal : s.params.outCapLegal = true) (h : exec .encode s = .next t) (herr : t.err = false) :
    encodeSize s / 8 ≤ s.params.outCap := by
  obtain ⟨cps, hok, -⟩ := exec_encode_embeds h herr
  obtain ⟨hfit, -, hheader, -⟩ := encodeChecks_eq_ok.mp hok
  exact outCount_encodeSize (u := s) rfl ▸ outCount_le_cap hlegal hfit hheader _

theorem exec_encode_warnTrunc (h : exec .encode s = .next t) (herr : t.err = false) :
    t.warnTrunc = true ↔ s.nlen.toNat - 64 < 8 * s.tlen.toNat := by
  rw [← truncates_iff]
  rcases exec_encode_eq_next.mp h with ⟨e, -, rfl⟩ | ⟨cps, pix', -, -, rfl⟩
  · simp at herr
  · rw [completeOk_warnTrunc]

/-- Settles O24: a text that fits is embedded whole, so its whole characters are all of it. -/
theorem roundTripReturnsTheText : Obligations.RoundTripReturnsTheText := by
  intro s t u hlegal h herr hroom hparams hnlen hpix
  have hsize : encodeSize s = 8 * s.tlen.toNat := Nat.min_eq_right hroom
  have hchars : encodeSize s / 8 = s.tlen.toNat := by omega
  obtain ⟨cps, -, -, hstatus⟩ := exec_encode_embeds h herr
  obtain ⟨v, hexec, hstatus', hbinsize, houtlen, htext⟩ :=
    exec_decode_after_encode h herr hparams hnlen (by rwa [hsize]) (encodeSize_div_le_cap hlegal h herr)
  refine ⟨v, hexec, ?_, hstatus', hbinsize.trans hsize, BitVec.eq_of_toNat_eq (houtlen.trans hchars),
    by rwa [hchars] at htext⟩
  rw [hstatus, okStatus_truncates, if_neg (not_lt.mpr hroom)]

/-- Settles O25: a text that does not fit fills the buffer, the bits of the half-written character included, and DECODE takes
the whole characters. -/
theorem truncationRoundTripCutsTheText : Obligations.TruncationRoundTripCutsTheText := by
  intro s t u hlegal h herr hlong hparams hnlen hpix
  have hsize : encodeSize s = s.nlen.toNat - 64 := Nat.min_eq_left hlong.le
  obtain ⟨cps, hok, hembed, -⟩ := exec_encode_embeds h herr
  have hb := encodeSize_le_of_checked hok
  refine ⟨(exec_encode_warnTrunc h herr).mpr hlong, (exec_encode_binsize h herr).trans hsize, fun p hlo hhi => ?_, ?_⟩
  · obtain ⟨old, hold⟩ := embed_loaded hembed hb p (by omega)
    obtain ⟨cp, htxt, -, hcp⟩ := encodeChecks_char hok (k := (p - 64) / 8) (by omega)
    exact ⟨cp, old, htxt, hold, embed_read_payload hembed hb hlo (by omega) hold hcp⟩
  · obtain ⟨-, -, hheader, -⟩ := encodeChecks_eq_ok.mp hok
    obtain ⟨v, hexec, -, -, houtlen, htext⟩ := exec_decode_after_encode h herr hparams hnlen
      (fun p hp => hpix p (by omega)) (encodeSize_div_le_cap hlegal h herr)
    rw [hsize] at houtlen htext
    exact ⟨v, hexec, houtlen, htext⟩

/-- DECODE that announces no character stores none. -/
theorem exec_decode_out_of_empty {v : State} (h : exec .decode u = .next v) (hempty : v.outlen = 0) : v.out = u.out := by
  rcases exec_decode_eq_next.mp h with ⟨e, -, rfl⟩ | ⟨n, out', -, -, -, hstore, rfl⟩
  · rfl
  · have hcount : outCount u n = 0 := by rw [← ofNat_outCount_toNat u n]; exact congrArg BitVec.toNat hempty
    rw [hcount, storeChunks_zero] at hstore
    exact (Host.Outcome.next.inj hstore).symm

/-- Settles O26: nothing is embedded, so the header reads 0. -/
theorem emptyPayloadDecodesToNothing : Obligations.EmptyPayloadDecodesToNothing := by
  intro s t h herr hempty
  have hsize : encodeSize s = 0 := by
    have := encodeSize_le_avail s
    have := encodeSize_le_want s
    omega
  have hsame := exec_sameOperands h
  obtain ⟨v, hexec, -, hbinsize, houtlen, -⟩ := exec_decode_after_encode h herr hsame.params hsame.nlen (fun _ _ => rfl)
    (by rw [hsize]; exact Nat.zero_le _)
  rw [hsize] at hbinsize houtlen
  have houtlen : v.outlen = 0 := BitVec.eq_of_toNat_eq houtlen
  refine ⟨v, hexec, BitVec.eq_of_toNat_eq ((exec_encode_binsize h herr).trans hsize), BitVec.eq_of_toNat_eq hbinsize, houtlen,
    (exec_decode_out_of_empty hexec houtlen).trans (exec_out h (by decide)), ?_⟩
  rw [exec_encode_warnTrunc h herr]
  omega

end Sys2Proof.Machine
end

section
/-! How a command ends (60_exceptions.md): it raises an error of its own checks (R147) or completes with `warn` (R149). -/

namespace Sys2Proof.Machine

/-- The error that a command's checks find, if any, is not `ILLEGAL_COMMAND`, which belongs to words that decode to no command
(R66, R144); and `warn` is 1 only in an ENCODE that truncates (R149). -/
theorem exec_raises_or_completes_with {s t : State} {i : Instr} (h : exec i s = .next t) :
    (∃ e, e.code ≠ .illegalCommand ∧ t = raise e s) ∨
    ∃ w u, (w = true ↔ i = .encode ∧ truncates s = true) ∧ t = completeOk w u := by
  cases i with
  | nop => cases h; exact .inr ⟨false, s, by simp, rfl⟩
  | encode =>
    rcases exec_encode_eq_next.mp h with ⟨e, he, rfl⟩ | ⟨cps, pix', -, -, rfl⟩
    · exact .inl ⟨e, by rcases encodeChecks_error_code he with h | h | h <;> simp [h], rfl⟩
    · exact .inr ⟨truncates s, _, by simp, rfl⟩
  | decode =>
    rcases exec_decode_eq_next.mp h with ⟨e, he, rfl⟩ | ⟨n, out', -, -, -, -, rfl⟩
    · exact .inl ⟨e, by rcases decodeChecks_error_code he with h | h <;> simp [h], rfl⟩
    · exact .inr ⟨false, _, by simp, rfl⟩
  | rdbit =>
    rcases exec_rdbit_eq_next.mp h with ⟨e, he, rfl⟩ | ⟨-, -, v, -, rfl⟩
    · exact .inl ⟨e, by rcases bitChecks_error_code he with h | h <;> simp [h], rfl⟩
    · exact .inr ⟨false, _, by simp, rfl⟩
  | wrbit =>
    rcases exec_wrbit_eq_next.mp h with ⟨e, he, rfl⟩ | ⟨-, -, pix', -, rfl⟩
    · exact .inl ⟨e, by rcases bitChecks_error_code he with h | h <;> simp [h], rfl⟩
    · exact .inr ⟨false, _, by simp, rfl⟩

/-- Settles O27: a command that did not complete has raised. -/
theorem fatalErrorsArePrecise : Obligations.FatalErrorsArePrecise := by
  intro i s t h herr
  rcases exec_raises_or_completes_with h with ⟨e, hcode, rfl⟩ | ⟨w, u, -, rfl⟩
  · exact ⟨e, hcode, rfl⟩
  · simp at herr

/-! ### `ERRCODE` -/

@[simp] theorem raise_errcode (e : FatalError) (s : State) : (raise e s).errcode = (errNumber e.code).toNat := by
  rcases e with ⟨c, _, _, _⟩; cases c <;> simp [State.errcode, errNumber]

@[simp] theorem completeOk_errcode (w : Bool) (s : State) : (completeOk w s).errcode = 0 := by
  cases w <;> simp [State.errcode, okStatus]

theorem errNumber_between_one_and_five (e : ErrCode) : 1 ≤ (errNumber e).toNat ∧ (errNumber e).toNat ≤ 5 := by
  cases e <;> decide

/-- Settles O30: `raise` leaves an error status, `complete_ok(warn)` a clean one in which only `WARN_TRUNC` varies. -/
theorem completionSetsTheFlags : Obligations.CompletionSetsTheFlags := by
  intro i s t h
  rcases exec_raises_or_completes_with h with ⟨e, -, rfl⟩ | ⟨w, u, hwarn, rfl⟩
  · refine ⟨raise_done e s, raise_busy e s, by simp, fun herr => ?_, fun _ => ?_⟩
    · simp at herr
    · rw [raise_errcode]
      exact errNumber_between_one_and_five e.code
  · refine ⟨completeOk_done w u, completeOk_busy w u, ?_, fun _ => ⟨?_, completeOk_errcode w u, rfl, rfl, rfl⟩, fun herr => ?_⟩
    · rw [completeOk_warnTrunc, hwarn, truncates_iff]
      simp
    · rw [completeOk_warnTrunc]
      rfl
    · simp at herr

end Sys2Proof.Machine
end

section
/-! The idle block (R160, R179). -/

namespace Sys2Proof.Machine

theorem takeInput_of_nil {s : State} (perform : HostEvent → State → Result State) (hi : s.inputs = []) :
    takeInput perform s = .next s := by
  rw [takeInput, hi]

/-- Settles O8: an idle step takes the next host event, and there is none. -/
theorem idleStepHoldsAllState : Obligations.IdleStepHoldsAllState := by
  intro s hidle hi
  rw [step_idle hidle, takeInput_of_nil hostEvent hi]

end Sys2Proof.Machine
end

section
/-! The busy window without turns of the host: a starting turn, the requests of a micro-sequence, a completing turn (log 10). -/

namespace Sys2Proof.Machine

variable {P : Nat → State → Prop} {n : Nat}

/-- A property indexed by the cursor, carried on by every step below `n`, holds after `n` steps. -/
theorem run_of_indexed_step (hstep : ∀ p u, p < n → P p u → ∃ u', step u = .next u' ∧ P (p + 1) u') {s : State} (h0 : P 0 s) :
    ∃ u, Sys2Proof.core.run n s = .next u ∧ P n u := by
  suffices h : ∀ k ≤ n, ∃ u, Sys2Proof.core.run k s = .next u ∧ P k u from h n le_rfl
  intro k hk
  induction k with
  | zero => exact ⟨s, rfl, h0⟩
  | succ k ih =>
    obtain ⟨u, hrun, hu⟩ := ih (by omega)
    obtain ⟨u', hs, hu'⟩ := hstep k u hk hu
    exact ⟨u', by rw [run_add k 1 hrun, run_succ 0 hs, run_zero], hu'⟩

/-- A starting turn, `n` requests and a completing turn make `n + 2` steps. -/
theorem run_window {s a : State} {Q : State → Prop} (hstart : step s = .next a) (h0 : P 0 a)
    (hstep : ∀ p u, p < n → P p u → ∃ u', step u = .next u' ∧ P (p + 1) u')
    (hend : ∀ u, P n u → ∃ v, step u = .next v ∧ Q v) : ∃ v, Sys2Proof.core.run (n + 2) s = .next v ∧ Q v := by
  obtain ⟨u, hrun, hu⟩ := run_of_indexed_step hstep h0
  obtain ⟨v, hs, hv⟩ := hend u hu
  exact ⟨v, by rw [run_succ (n + 1) hstart, run_add n 1 hrun, run_succ 0 hs, run_zero], hv⟩

/-- `u` is `s` with the micro-sequence of its command at position `p`: the cursor, the accumulators, `PIX` and `OUT` are its own,
all else is as it was at acceptance (R185, R186). -/
def RunningAt (s : State) (p : Nat) (u : State) : Prop :=
  u = { s with pix := u.pix, out := u.out, hdr := u.hdr, chr := u.chr, pos := BitVec.ofNat 64 p, checked := true }

namespace RunningAt

variable {s u : State} {p : Nat}

theorem params (h : RunningAt s p u) : u.params = s.params := by rw [h]
theorem nlen (h : RunningAt s p u) : u.nlen = s.nlen := by rw [h]
theorem tlen (h : RunningAt s p u) : u.tlen = s.tlen := by rw [h]
theorem txt (h : RunningAt s p u) : u.txt = s.txt := by rw [h]
theorem cmd (h : RunningAt s p u) : u.cmd = s.cmd := by rw [h]
theorem turns (h : RunningAt s p u) : u.turns = s.turns := by rw [h]
theorem busy (h : RunningAt s p u) : u.busy = s.busy := by rw [h]; rfl
theorem checked (h : RunningAt s p u) : u.checked = true := by rw [h]

theorem pos_toNat (h : RunningAt s p u) (hp : p < 2 ^ 64) : u.pos.toNat = p := by
  rw [h]
  exact Nat.mod_eq_of_lt hp

/-- A request advances the cursor and may change the memories and the accumulators. -/
theorem advance (h : RunningAt s p u) (pix out : Memory Byte) (hdr : Word) (chr : Byte) :
    RunningAt s (p + 1) { u with pix := pix, out := out, hdr := hdr, chr := chr, pos := u.pos + 1 } := by
  rw [RunningAt, BitVec.ofNat_add, h]
  rfl

end RunningAt

end Sys2Proof.Machine
end

section
/-! The accumulators of the micro-sequences (R185, R186): what leaves one bit by bit, and what gathers in one bit by bit. -/

namespace Sys2Proof.Machine

/-- The bit that leaves an accumulator after `j` shifts. -/
theorem extractLsb'_top_shiftLeft {w : Nat} (x : BitVec w) {j : Nat} (hj : j < w) :
    (x <<< j).extractLsb' (w - 1) 1 = BitVec.ofNat 1 (x.toNat / 2 ^ (w - 1 - j) % 2) := by
  have hbit : (x <<< j).getLsbD (w - 1) = x.getLsbD (w - 1 - j) := by
    rw [BitVec.getLsbD_shiftLeft, decide_eq_true (by omega : w - 1 < w), decide_eq_false (by omega : ¬ w - 1 < j)]
    rfl
  apply BitVec.eq_of_toNat_eq
  rw [BitVec.extractLsb'_toNat, Nat.shiftRight_eq_div_pow, pow_one, BitVec.toNat_ofNat, pow_one, Nat.mod_mod,
    ← Nat.toNat_testBit, ← Nat.toNat_testBit, BitVec.testBit_toNat, BitVec.testBit_toNat, hbit]

theorem hdrTop_shiftLeft (h : Word) {j : Nat} (hj : j < 64) :
    hdrTop (h <<< j) = BitVec.ofNat 1 (h.toNat / 2 ^ (63 - j) % 2) := extractLsb'_top_shiftLeft h hj

theorem chrTop_shiftLeft (c : Byte) {j : Nat} (hj : j < 8) :
    chrTop (c <<< j) = BitVec.ofNat 1 (c.toNat / 2 ^ (7 - j) % 2) := extractLsb'_top_shiftLeft c hj

/-! ### Gathering bits -/

/-- `2*acc + b`, as R186 gathers a bit. -/
theorem shiftLeft_or_bit {w : Nat} (n : Nat) (b : Bit) :
    (BitVec.ofNat w n <<< 1) ||| b.setWidth w = BitVec.ofNat w (2 * n + b.toNat) := by
  have hdisjoint : (BitVec.ofNat w n <<< 1) &&& b.setWidth w = 0#w := by
    apply BitVec.eq_of_getLsbD_eq
    intro i hi
    have hb : i ≠ 0 → b.getLsbD i = false := fun h => BitVec.getLsbD_of_ge b i (by omega)
    by_cases h : i = 0 <;> simp [h, hb]
  rw [← BitVec.add_eq_or_of_and_eq_zero _ _ hdisjoint]
  apply BitVec.eq_of_toNat_eq
  simp [Nat.shiftLeft_eq, Nat.mul_comm]

/-- The accumulator `acc` holds the `n` bits from position `p` on (R186). -/
def Gathers {w : Nat} (pix : Memory Byte) (p n : Nat) (acc : BitVec w) : Prop :=
  ∃ bs, unpackBits pix p n = .next bs ∧ acc = BitVec.ofNat w (val bs)

theorem gathers_zero {w : Nat} (pix : Memory Byte) (p : Nat) : Gathers pix p 0 (0#w) := ⟨[], rfl, rfl⟩

theorem unpackBits_concat {pix : Memory Byte} {p n : Nat} {bs : List Bit} {b : Bit} (h : unpackBits pix p n = .next bs)
    (hb : lsbRead pix (p + n) = .next b) : unpackBits pix p (n + 1) = .next (bs ++ [b]) := by
  obtain ⟨hlen, hbits⟩ := unpackBits_eq_next.mp h
  refine unpackBits_eq_next.mpr ⟨by simp [hlen], fun j hj => ?_⟩
  rcases Nat.lt_succ_iff_lt_or_eq.mp hj with hj | rfl
  · rw [List.getElem?_append_left (by omega)]
    exact hbits j hj
  · obtain ⟨v, hv, rfl⟩ := lsbRead_eq_next.mp hb
    exact ⟨v, hv, by simp [← hlen]⟩

theorem Gathers.concat {w : Nat} {pix : Memory Byte} {p n : Nat} {acc : BitVec w} {b : Bit} (h : Gathers pix p n acc)
    (hb : lsbRead pix (p + n) = .next b) : Gathers pix p (n + 1) ((acc <<< 1) ||| b.setWidth w) := by
  obtain ⟨bs, hbs, rfl⟩ := h
  exact ⟨bs ++ [b], unpackBits_concat hbs hb, by rw [shiftLeft_or_bit, val_concat]⟩

theorem Gathers.hdr_eq {pix : Memory Byte} {n : Nat} {hdr : Word} (h : Gathers pix 0 64 hdr) (hn : readHeader pix = .next n) :
    hdr = BitVec.ofNat 64 n := by
  obtain ⟨bs, hbs, rfl⟩ := h
  obtain ⟨bs', hbs', rfl⟩ := readHeader_eq_next.mp hn
  obtain rfl : bs = bs' := Host.Outcome.next.inj (hbs.symm.trans hbs')
  rfl

theorem Gathers.chunk_eq {pix : Memory Byte} {k : Nat} {c : Byte} (h : Gathers pix (64 + 8 * k) 8 c) : chunk pix k = .next c :=
  chunk_eq_next.mpr h

theorem exists_lsbRead_of_unpackBits {pix : Memory Byte} {p n : Nat} {bs : List Bit} (h : unpackBits pix p n = .next bs) {j : Nat}
    (hj : j < n) : ∃ b, lsbRead pix (p + j) = .next b := by
  obtain ⟨v, hv, -⟩ := (unpackBits_eq_next.mp h).2 j hj
  exact ⟨lsbOf v, lsbRead_of_some hv⟩

end Sys2Proof.Machine
end

section
/-! ENCODE request by request (R185): a running micro-sequence has packed the first bits of what the atomic ENCODE packs. -/

namespace Sys2Proof.Machine

/-- Everything ENCODE packs, from position 0 on: the header, then the payload (R100 phases 3 and 4). -/
def embedBits (bs : Nat) (cps : List CodePoint) : List Bit := bits 64 bs ++ (textBits cps).take bs

theorem embed_eq_packBits (pix : Memory Byte) (bs : Nat) (cps : List CodePoint) :
    embed pix bs cps = packBits pix 0 (embedBits bs cps) := by
  rw [embedBits, packBits_append, bits_length]
  rfl

theorem embedBits_length {bs : Nat} {cps : List CodePoint} (hb : bs ≤ 8 * cps.length) :
    (embedBits bs cps).length = 64 + bs := by
  simp [embedBits, hb]

theorem embedBits_header {bs p : Nat} (cps : List CodePoint) (hp : p < 64) :
    (embedBits bs cps)[p]? = some (BitVec.ofNat 1 (bs / 2 ^ (63 - p) % 2)) := by
  rw [embedBits, List.getElem?_append_left (by simpa using hp), bits_getElem? 64 bs p hp]

theorem embedBits_payload {bs p : Nat} {cps : List CodePoint} {cp : CodePoint} (hp : 64 ≤ p) (hlt : p < 64 + bs)
    (hcp : cps[(p - 64) / 8]? = some cp) :
    (embedBits bs cps)[p]? = some (BitVec.ofNat 1 (cp.toNat / 2 ^ (7 - (p - 64) % 8) % 2)) := by
  rw [embedBits, List.getElem?_append_right (by simpa using hp), bits_length, List.getElem?_take_of_lt (by omega),
    textBits_getElem?_of_some hcp]

/-- What is left to pack begins with one `LsbWrite`. -/
theorem packBits_drop_eq_next {pix pix' : Memory Byte} {p q : Nat} {l : List Bit} {b : Bit}
    (h : packBits pix q (l.drop p) = .next pix') (hb : l[p]? = some b) :
    ∃ m, lsbWrite pix q b = .next m ∧ packBits m (q + 1) (l.drop (p + 1)) = .next pix' := by
  obtain ⟨hp, rfl⟩ := List.getElem?_eq_some_iff.mp hb
  rwa [List.drop_eq_getElem_cons hp, packBits_cons, andThen_eq_next] at h

/-- The micro-sequence of an ENCODE accepted in `s`, of the text `cps`, stands in `u` at position `p`: what is left to pack leads to
the memory `pix'`, and the accumulators hold what is left of the header and of the character. -/
structure EncodeAt (s : State) (cps : List CodePoint) (pix' : Memory Byte) (p : Nat) (u : State) : Prop where
  running : RunningAt s p u
  out : u.out = s.out
  rest : packBits u.pix p ((embedBits (encodeSize s) cps).drop p) = .next pix'
  header : p < 64 → u.hdr = BitVec.ofNat 64 (encodeSize s) <<< p
  char : 64 ≤ p → (p - 64) % 8 ≠ 0 → ∃ cp, cps[(p - 64) / 8]? = some cp ∧ u.chr = cp.setWidth 8 <<< ((p - 64) % 8)

variable {s u : State} {cps : List CodePoint} {pix' : Memory Byte} {p : Nat}

theorem step_encode (hb : s.busy = true) (hturns : s.turns = []) (hcmd : s.cmd = 0x01) : step s = encodeTurn s := by
  rw [step_engine hb hturns, engineTurn_encode hcmd]

theorem encodeTurn_of_error {e : FatalError} (hc : s.checked = false) (h : encodeChecks s = .next (.error e)) :
    encodeTurn s = .next (raise e s) := by
  rw [encodeTurn, if_pos hc, encodeBegin, h, guarded_error]

theorem encodeTurn_of_ok (hc : s.checked = false) (h : encodeChecks s = .next (.ok cps)) :
    encodeTurn s = .next { s with hdr := BitVec.ofNat 64 (encodeSize s), pos := 0, checked := true } := by
  rw [encodeTurn, if_pos hc, encodeBegin, h, guarded_ok]

theorem encodeTurn_of_header {m : Memory Byte} (hc : s.checked = true) (hp : s.pos.toNat < 64)
    (h : lsbWrite s.pix s.pos.toNat (hdrTop s.hdr) = .next m) :
    encodeTurn s = .next { s with pix := m, hdr := s.hdr <<< 1, pos := s.pos + 1 } := by
  rw [encodeTurn, if_neg (by simp [hc]), if_pos hp, encodeHeaderBit, h, andThen_next]

theorem encodeTurn_of_payload {c : Byte} {m : Memory Byte} (hc : s.checked = true) (hp : 64 ≤ s.pos.toNat)
    (hlt : s.pos.toNat < 64 + encodeSize s) (hchr : loadChr s (s.pos.toNat - 64) = .next c)
    (h : lsbWrite s.pix s.pos.toNat (chrTop c) = .next m) :
    encodeTurn s = .next { s with pix := m, chr := c <<< 1, pos := s.pos + 1 } := by
  rw [encodeTurn, if_neg (by simp [hc]), if_neg (by omega), if_pos hlt, encodePayloadBit, hchr, andThen_next, h, andThen_next]

theorem encodeTurn_of_end (hc : s.checked = true) (hp : 64 + encodeSize s ≤ s.pos.toNat) :
    encodeTurn s = .next (completeOk (truncates s) { s with binsize := BitVec.ofNat 64 (encodeSize s), checked := false }) := by
  rw [encodeTurn, if_neg (by simp [hc]), if_neg (by omega), if_neg (by omega)]

theorem lt_of_le_encodeSize (hok : encodeChecks s = .next (.ok cps)) (hp : p ≤ 64 + encodeSize s) : p < 2 ^ 64 := by
  obtain ⟨-, -, hheader, -⟩ := encodeChecks_eq_ok.mp hok
  have hle := header_add_encodeSize_le hheader
  have hlt := s.nlen.isLt
  omega

namespace EncodeAt

theorem start (hembed : embed s.pix (encodeSize s) cps = .next pix') :
    EncodeAt s cps pix' 0 { s with hdr := BitVec.ofNat 64 (encodeSize s), pos := 0, checked := true } where
  running := rfl
  out := rfl
  rest := by rwa [embed_eq_packBits] at hembed
  header := fun _ => (BitVec.shiftLeft_zero _).symm
  char := fun h => absurd h (by decide)

theorem step_eq (h : EncodeAt s cps pix' p u) (hb : s.busy = true) (hturns : s.turns = []) (hcmd : s.cmd = 0x01) :
    step u = encodeTurn u :=
  step_encode (h.running.busy.trans hb) (h.running.turns.trans hturns) (h.running.cmd.trans hcmd)

theorem encodeSize_eq (h : EncodeAt s cps pix' p u) : encodeSize u = encodeSize s :=
  encodeSize_congr h.running.nlen h.running.tlen

theorem header_turn (h : EncodeAt s cps pix' p u) (hp : p < 64) :
    ∃ u', encodeTurn u = .next u' ∧ EncodeAt s cps pix' (p + 1) u' := by
  have hpos : u.pos.toNat = p := h.running.pos_toNat (by omega)
  have hbit : (embedBits (encodeSize s) cps)[p]? = some (hdrTop u.hdr) := by
    rw [h.header hp, hdrTop_shiftLeft _ hp, ofNat_encodeSize_toNat, embedBits_header cps hp]
  obtain ⟨m, hwrite, hrest⟩ := packBits_drop_eq_next h.rest hbit
  refine ⟨_, encodeTurn_of_header h.running.checked (by omega) (by rwa [hpos]), h.running.advance m _ _ _, h.out, hrest, fun _ => ?_, ?_⟩
  · rw [h.header hp, ← BitVec.shiftLeft_add]
  · omega

theorem payload_turn (h : EncodeAt s cps pix' p u) (hok : encodeChecks s = .next (.ok cps)) (hp : 64 ≤ p)
    (hlt : p < 64 + encodeSize s) : ∃ u', encodeTurn u = .next u' ∧ EncodeAt s cps pix' (p + 1) u' := by
  have hpos : u.pos.toNat = p := h.running.pos_toNat (lt_of_le_encodeSize hok hlt.le)
  have hwant := encodeSize_le_want s
  obtain ⟨cp, hread, hsmall, hcp⟩ := encodeChecks_char hok (k := (p - 64) / 8) (by omega)
  have hload : loadChr u (p - 64) = .next (cp.setWidth 8 <<< ((p - 64) % 8)) := by
    refine loadChr_eq_next.mpr ?_
    by_cases hfirst : (p - 64) % 8 = 0
    · exact .inl ⟨hfirst, cp, by rw [h.running.txt, hread], by rw [hfirst, BitVec.shiftLeft_zero]⟩
    · obtain ⟨cp', hcp', hchr⟩ := h.char hp hfirst
      obtain rfl : cp' = cp := Option.some.inj (hcp'.symm.trans hcp)
      exact .inr ⟨hfirst, hchr.symm⟩
  have hlow : (cp.setWidth 8).toNat = cp.toNat := Nat.mod_eq_of_lt (by omega)
  have hbit : (embedBits (encodeSize s) cps)[p]? = some (chrTop (cp.setWidth 8 <<< ((p - 64) % 8))) := by
    rw [chrTop_shiftLeft _ (Nat.mod_lt _ (by decide)), hlow, embedBits_payload hp hlt hcp]
  obtain ⟨m, hwrite, hrest⟩ := packBits_drop_eq_next h.rest hbit
  refine ⟨_, encodeTurn_of_payload h.running.checked (by omega) (by rw [h.encodeSize_eq]; omega) (by rwa [hpos]) (by rwa [hpos]),
    h.running.advance m _ _ _, h.out, hrest, by omega, fun _ hnext => ⟨cp, ?_, ?_⟩⟩
  · rwa [show (p + 1 - 64) / 8 = (p - 64) / 8 by omega]
  · rw [show (p + 1 - 64) % 8 = (p - 64) % 8 + 1 by omega, BitVec.shiftLeft_add]

/-- One request before the end of the bitstring (R185). -/
theorem request (h : EncodeAt s cps pix' p u) (hok : encodeChecks s = .next (.ok cps)) (hlt : p < 64 + encodeSize s) :
    ∃ u', encodeTurn u = .next u' ∧ EncodeAt s cps pix' (p + 1) u' := by
  rcases Nat.lt_or_ge p 64 with hp | hp
  · exact h.header_turn hp
  · exact h.payload_turn hok hp hlt

/-- The completing turn answers the atomic result but for the hidden values (R187). -/
theorem completion (h : EncodeAt s cps pix' (64 + encodeSize s) u) (hok : encodeChecks s = .next (.ok cps)) :
    ∃ v, encodeTurn u = .next v ∧
      v.visible = (completeOk (truncates s)
        (freeHidden { s with pix := pix', binsize := BitVec.ofNat 64 (encodeSize s) })).visible ∧
      v.pos.toNat = 64 + encodeSize s := by
  have hpos : u.pos.toNat = 64 + encodeSize s := h.running.pos_toNat (lt_of_le_encodeSize hok le_rfl)
  have hlength := embedBits_length (encodeSize_le_of_checked hok)
  have hpix : u.pix = pix' := by
    have hrest := h.rest
    rw [List.drop_eq_nil_of_le hlength.le, packBits_nil] at hrest
    exact Host.Outcome.next.inj hrest
  refine ⟨_, encodeTurn_of_end h.running.checked (by rw [h.encodeSize_eq, hpos]), ?_, hpos⟩
  rw [← hpix, h.running, h.out]
  rfl

end EncodeAt

/-- Settles O55: after the starting turn every request keeps `EncodeAt`, and at the end of the bitstring it gives the atomic result. -/
theorem encodeWindowReachesTheAtomicResult : Obligations.EncodeWindowReachesTheAtomicResult := by
  intro s t hb hturns hc hcmd hexec
  have hstart : step s = encodeTurn s := step_encode hb hturns hcmd
  rcases exec_encode_eq_next.mp hexec with ⟨e, herror, rfl⟩ | ⟨cps, pix', hok, hembed, rfl⟩
  · refine ⟨fun _ => ?_, fun herr => absurd herr (by simp)⟩
    rw [run_succ 0 (hstart.trans (encodeTurn_of_error hc herror)), run_zero]
  · refine ⟨fun herr => absurd herr (by simp), fun _ => ?_⟩
    rw [completeOk_binsize, freeHidden_binsize, ofNat_encodeSize_toNat]
    refine run_window (hstart.trans (encodeTurn_of_ok hc hok)) (EncodeAt.start hembed) (fun p u hp h => ?_) fun u h => ?_
    · rw [h.step_eq hb hturns hcmd]
      exact h.request hok hp
    · rw [h.step_eq hb hturns hcmd]
      exact h.completion hok

end Sys2Proof.Machine
end

section
/-! DECODE request by request (R186): a running micro-sequence has gathered the first bits of the header, stored the chunks it has passed,
and gathered the first bits of the next one. -/

namespace Sys2Proof.Machine

/-- The micro-sequence of a DECODE accepted in `s`, whose header is `n`, stands in `u` at position `p`: the accumulators hold the
bits of the header and of the chunk that it has passed, and what is left to store leads to the memory `out'`. -/
structure DecodeAt (s : State) (n : Nat) (out' : Memory Byte) (p : Nat) (u : State) : Prop where
  running : RunningAt s p u
  pix : u.pix = s.pix
  header : Gathers s.pix 0 (min p 64) u.hdr
  char : Gathers s.pix (64 + 8 * ((p - 64) / 8)) ((p - 64) % 8) (if (p - 64) % 8 = 0 then 0#8 else u.chr)
  rest : storeChunks s.params.outCap s.pix (outCount s n - (p - 64) / 8) ((p - 64) / 8) u.out = .next out'

variable {s u : State} {n p : Nat} {out' : Memory Byte}

theorem step_decode (hb : s.busy = true) (hturns : s.turns = []) (hcmd : s.cmd = 0x02) : step s = decodeTurn s := by
  rw [step_engine hb hturns, engineTurn_decode hcmd]

theorem decodeTurn_of_error {e : FatalError} (hc : s.checked = false) (h : decodeChecks s = .next (.error e)) :
    decodeTurn s = .next (raise e s) := by
  rw [decodeTurn, if_pos hc, decodeBegin, h, guarded_error]

theorem decodeTurn_of_ok (hc : s.checked = false) (h : decodeChecks s = .next (.ok ())) :
    decodeTurn s = .next { s with hdr := 0, pos := 0, checked := true } := by
  rw [decodeTurn, if_pos hc, decodeBegin, h, guarded_ok]

theorem decodeTurn_of_header {b : Bit} (hc : s.checked = true) (hp : s.pos.toNat < 64)
    (h : lsbRead s.pix s.pos.toNat = .next b) :
    decodeTurn s = .next { s with hdr := (s.hdr <<< 1) ||| b.setWidth 64, pos := s.pos + 1 } := by
  rw [decodeTurn, if_neg (by simp [hc]), if_pos hp, decodeHeaderBit, h, andThen_next]

theorem decodeTurn_of_payload {b : Bit} {c : Byte} {o : Memory Byte} (hc : s.checked = true) (hp : 64 ≤ s.pos.toNat)
    (hlt : s.pos.toNat < 64 + 8 * outCount s s.hdr.toNat) (h : lsbRead s.pix s.pos.toNat = .next b)
    (hchr : ((if (s.pos.toNat - 64) % 8 = 0 then 0#8 else s.chr) <<< 1) ||| b.setWidth 8 = c)
    (hstore : storeChr s (s.pos.toNat - 64) c = .next o) :
    decodeTurn s = .next { s with out := o, chr := c, pos := s.pos + 1 } := by
  subst hchr
  rw [decodeTurn, if_neg (by simp [hc]), if_neg (by omega), if_pos hlt, decodePayloadBit, h, andThen_next]
  simp only [hstore, andThen_next]

theorem decodeTurn_of_end (hc : s.checked = true) (hp : 64 + 8 * outCount s s.hdr.toNat ≤ s.pos.toNat) :
    decodeTurn s = .next (completeOk false { s with
      binsize := s.hdr, outlen := BitVec.ofNat 64 (outCount s s.hdr.toNat), checked := false }) := by
  rw [decodeTurn, if_neg (by simp [hc]), if_neg (by omega), if_neg (by omega)]

theorem lt_of_le_outCount (hheader : 64 ≤ s.nlen.toNat) (hp : p ≤ 64 + 8 * outCount s n) : p < 2 ^ 64 := by
  have hle := header_add_chunks_le hheader n
  have hlt := s.nlen.isLt
  omega

namespace DecodeAt

theorem start (hstore : storeChunks s.params.outCap s.pix (outCount s n) 0 s.out = .next out') :
    DecodeAt s n out' 0 { s with hdr := 0, pos := 0, checked := true } where
  running := rfl
  pix := rfl
  header := gathers_zero s.pix 0
  char := gathers_zero s.pix 64
  rest := hstore

theorem step_eq (h : DecodeAt s n out' p u) (hb : s.busy = true) (hturns : s.turns = []) (hcmd : s.cmd = 0x02) :
    step u = decodeTurn u :=
  step_decode (h.running.busy.trans hb) (h.running.turns.trans hturns) (h.running.cmd.trans hcmd)

/-- Past the header the accumulator holds it (R186). -/
theorem hdr_eq (h : DecodeAt s n out' p u) (hn : readHeader s.pix = .next n) (hp : 64 ≤ p) : u.hdr = BitVec.ofNat 64 n := by
  have hgathers := h.header
  rw [min_eq_right hp] at hgathers
  exact hgathers.hdr_eq hn

theorem outCount_eq (h : DecodeAt s n out' p u) (hn : readHeader s.pix = .next n) (hp : 64 ≤ p) :
    outCount u u.hdr.toNat = outCount s n := by
  rw [h.hdr_eq hn hp, BitVec.toNat_ofNat, Nat.mod_eq_of_lt (readHeader_lt hn), outCount_congr h.running.nlen]

theorem header_turn (h : DecodeAt s n out' p u) (hn : readHeader s.pix = .next n) (hp : p < 64) :
    ∃ u', decodeTurn u = .next u' ∧ DecodeAt s n out' (p + 1) u' := by
  have hpos : u.pos.toNat = p := h.running.pos_toNat (by omega)
  obtain ⟨bs, hbs, -⟩ := readHeader_eq_next.mp hn
  obtain ⟨b, hb⟩ := exists_lsbRead_of_unpackBits hbs hp
  rw [Nat.zero_add] at hb
  have hgathers := h.header
  rw [min_eq_left hp.le] at hgathers
  have hnone : p + 1 - 64 = p - 64 := by omega
  refine ⟨_, decodeTurn_of_header h.running.checked (by omega) (by rwa [hpos, h.pix]), h.running.advance _ _ _ _, h.pix, ?_,
    by rw [hnone]; exact h.char, by rw [hnone]; exact h.rest⟩
  rw [min_eq_left hp]
  exact hgathers.concat (by rwa [Nat.zero_add])

/-- A chunk that is not stored yet can be read and has an element of `OUT` to go to. -/
theorem next_chunk (h : DecodeAt s n out' p u) (hlt : (p - 64) / 8 < outCount s n) :
    ∃ c o, chunk s.pix ((p - 64) / 8) = .next c ∧ outWrite s.params.outCap u.out ((p - 64) / 8) c = .next o ∧
      storeChunks s.params.outCap s.pix (outCount s n - ((p - 64) / 8 + 1)) ((p - 64) / 8 + 1) o = .next out' := by
  have hrest := h.rest
  rw [show outCount s n - (p - 64) / 8 = outCount s n - ((p - 64) / 8 + 1) + 1 by omega, storeChunks_succ] at hrest
  simp only [andThen_eq_next] at hrest
  obtain ⟨c, hc, o, ho, hrest⟩ := hrest
  exact ⟨c, o, hc, ho, hrest⟩

theorem exists_lsbRead (h : DecodeAt s n out' p u) (hp : 64 ≤ p) (hlt : p < 64 + 8 * outCount s n) :
    ∃ b, lsbRead s.pix p = .next b := by
  obtain ⟨c, o, hc, -, -⟩ := h.next_chunk (by omega)
  obtain ⟨bs, hbs, -⟩ := chunk_eq_next.mp hc
  obtain ⟨b, hb⟩ := exists_lsbRead_of_unpackBits hbs (Nat.mod_lt (p - 64) (by decide))
  rw [show 64 + 8 * ((p - 64) / 8) + (p - 64) % 8 = p by omega] at hb
  exact ⟨b, hb⟩

/-- The eighth bit of a chunk stores it, any other bit stores nothing. -/
theorem store (h : DecodeAt s n out' p u) (hp : 64 ≤ p) (hlt : p < 64 + 8 * outCount s n) {acc : Byte}
    (hacc : Gathers s.pix (64 + 8 * ((p - 64) / 8)) ((p - 64) % 8 + 1) acc) :
    ∃ o, storeChr u (p - 64) acc = .next o ∧
      storeChunks s.params.outCap s.pix (outCount s n - (p + 1 - 64) / 8) ((p + 1 - 64) / 8) o = .next out' := by
  by_cases hlast : (p - 64) % 8 = 7
  · obtain ⟨c, o, hc, ho, hrest⟩ := h.next_chunk (by omega)
    rw [hlast] at hacc
    obtain rfl : c = acc := Host.Outcome.next.inj (hc.symm.trans hacc.chunk_eq)
    rw [show (p + 1 - 64) / 8 = (p - 64) / 8 + 1 by omega, storeChr, if_pos hlast, h.running.params]
    exact ⟨o, ho, hrest⟩
  · rw [show (p + 1 - 64) / 8 = (p - 64) / 8 by omega, storeChr, if_neg hlast]
    exact ⟨u.out, rfl, h.rest⟩

theorem payload_turn (h : DecodeAt s n out' p u) (hn : readHeader s.pix = .next n) (hheader : 64 ≤ s.nlen.toNat) (hp : 64 ≤ p)
    (hlt : p < 64 + 8 * outCount s n) : ∃ u', decodeTurn u = .next u' ∧ DecodeAt s n out' (p + 1) u' := by
  have hpos : u.pos.toNat = p := h.running.pos_toNat (lt_of_le_outCount hheader hlt.le)
  obtain ⟨b, hb⟩ := h.exists_lsbRead hp hlt
  have hacc := h.char.concat (b := b) (by rwa [show 64 + 8 * ((p - 64) / 8) + (p - 64) % 8 = p by omega])
  obtain ⟨o, hstore, hrest⟩ := h.store hp hlt hacc
  refine ⟨_, decodeTurn_of_payload h.running.checked (by omega) (by rw [h.outCount_eq hn hp]; omega) (by rwa [hpos, h.pix])
    (by rw [hpos]) (by rwa [hpos]), h.running.advance _ _ _ _, h.pix, ?_, ?_, hrest⟩
  · have hheld := h.header
    rw [min_eq_right hp] at hheld
    rwa [min_eq_right (by omega)]
  · by_cases hlast : (p - 64) % 8 = 7
    · rw [show (p + 1 - 64) % 8 = 0 by omega]
      exact gathers_zero s.pix _
    · rw [show (p + 1 - 64) % 8 = (p - 64) % 8 + 1 by omega, show (p + 1 - 64) / 8 = (p - 64) / 8 by omega,
        if_neg (Nat.succ_ne_zero _)]
      exact hacc

/-- One request before the end of the chunks taken (R186). -/
theorem request (h : DecodeAt s n out' p u) (hn : readHeader s.pix = .next n) (hheader : 64 ≤ s.nlen.toNat)
    (hlt : p < 64 + 8 * outCount s n) : ∃ u', decodeTurn u = .next u' ∧ DecodeAt s n out' (p + 1) u' := by
  rcases Nat.lt_or_ge p 64 with hp | hp
  · exact h.header_turn hn hp
  · exact h.payload_turn hn hheader hp hlt

/-- The completing turn answers the atomic result but for the hidden values (R187). -/
theorem completion (h : DecodeAt s n out' (64 + 8 * outCount s n) u) (hn : readHeader s.pix = .next n)
    (hheader : 64 ≤ s.nlen.toNat) :
    ∃ v, decodeTurn u = .next v ∧
      v.visible = (completeOk false (freeHidden { s with
        out := out', binsize := BitVec.ofNat 64 n, outlen := BitVec.ofNat 64 (outCount s n) })).visible ∧
      v.pos.toNat = 64 + 8 * outCount s n := by
  have hpos : u.pos.toNat = 64 + 8 * outCount s n := h.running.pos_toNat (lt_of_le_outCount hheader le_rfl)
  have hcount : outCount u u.hdr.toNat = outCount s n := h.outCount_eq hn (by omega)
  have hout : u.out = out' := by
    have hrest := h.rest
    rw [show (64 + 8 * outCount s n - 64) / 8 = outCount s n by omega, Nat.sub_self, storeChunks_zero] at hrest
    exact Host.Outcome.next.inj hrest
  refine ⟨_, decodeTurn_of_end h.running.checked (by rw [hcount, hpos]), ?_, hpos⟩
  rw [hcount, h.hdr_eq hn (by omega), ← hout, h.running, h.pix]
  rfl

end DecodeAt

/-- Settles O56: after the starting turn every request keeps `DecodeAt`, and past the last chunk it gives the atomic result. -/
theorem decodeWindowReachesTheAtomicResult : Obligations.DecodeWindowReachesTheAtomicResult := by
  intro s t hb hturns hc hcmd hexec
  have hstart : step s = decodeTurn s := step_decode hb hturns hcmd
  rcases exec_decode_eq_next.mp hexec with ⟨e, herror, rfl⟩ | ⟨n, out', hfit, hheader, hn, hstore, rfl⟩
  · refine ⟨fun _ => ?_, fun herr => absurd herr (by simp)⟩
    rw [run_succ 0 (hstart.trans (decodeTurn_of_error hc herror)), run_zero]
  · refine ⟨fun herr => absurd herr (by simp), fun _ => ?_⟩
    rw [completeOk_outlen, freeHidden_outlen, ofNat_outCount_toNat]
    have hok := decodeChecks_eq_ok.mpr ⟨hfit, hheader⟩
    refine run_window (hstart.trans (decodeTurn_of_ok hc hok)) (DecodeAt.start hstore) (fun p u hp h => ?_) fun u h => ?_
    · rw [h.step_eq hb hturns hcmd]
      exact h.request hn hheader hp
    · rw [h.step_eq hb hturns hcmd]
      exact h.completion hn hheader

end Sys2Proof.Machine
end

section
/-! Reset (R170 to R173), and `STATUS` between resets (R15, R171). -/

namespace Sys2Proof.Machine

/-- A read of a register goes to that register, and reset has cleared each (R171). -/
theorem regRead_resetWith (p : Params) (r : Nat) : regRead (State.resetWith p) r = 0 := by
  unfold regRead
  split <;> rfl

/-- The reset event leaves the registers of the block after reset. -/
theorem regRead_applyReset (s : State) (r : Nat) : regRead (applyReset s) r = 0 := regRead_resetWith s.params r

/-- Settles O1. -/
theorem resetClearsEveryRegister : Obligations.ResetClearsEveryRegister := fun p r => ⟨regRead_resetWith p r, rfl, rfl⟩

/-- The reset event of an idle block and in the host's turn of a busy one (R170, R173). -/
theorem step_of_reset {s : State} {es : List HostEvent} (hi : s.inputs = .reset :: es)
    (hfree : s.busy = false ∨ (s.busy = true ∧ ∃ ts, s.turns = .host :: ts)) :
    ∃ ts, step s = .next (applyReset { s with turns := ts, inputs := es }) := by
  rcases hfree with hb | ⟨hb, ts, ht⟩
  · exact ⟨s.turns, step_event hb hi⟩
  · exact ⟨ts, step_busy_event hb ht hi⟩

/-- Settles O2: the step is `applyReset`. -/
theorem resetEventClearsTheBlock : Obligations.ResetEventClearsTheBlock := by
  intro s es hi hfree
  obtain ⟨ts, hs⟩ := step_of_reset hi hfree
  exact ⟨_, hs, regRead_applyReset _, fun _ => ⟨rfl, rfl, rfl⟩, rfl, rfl, rfl⟩

/-! ### Only reset clears `STATUS` -/

theorem errorStatus_ne_zero (e : ErrCode) : errorStatus e ≠ 0x00 := by
  cases e <;> decide

theorem okStatus_ne_zero (w : Bool) : okStatus w ≠ 0x00 := by
  cases w <;> decide

theorem exec_status_ne_zero {s t : State} {i : Instr} (h : exec i s = .next t) : t.status ≠ 0x00 := by
  rcases exec_raises_or_completes_with h with ⟨e, -, rfl⟩ | ⟨w, u, -, rfl⟩
  · exact errorStatus_ne_zero e.code
  · exact okStatus_ne_zero w

theorem runCommand_status_ne_zero {s t : State} (h : runCommand s = .next t) : t.status ≠ 0x00 := by
  unfold runCommand at h
  split at h
  · exact exec_status_ne_zero h
  · cases h
    exact errorStatus_ne_zero .illegalCommand

/-- A turn of the engine raises, completes, or leaves `STATUS`. -/
theorem engineTurn_status_ne_zero {s t : State} (h : engineTurn s = .next t) (hs : s.status ≠ 0x00) : t.status ≠ 0x00 := by
  by_cases hencode : s.cmd = 0x01
  · rw [engineTurn_encode hencode] at h
    rcases encodeTurn_cases h with ⟨-, e, -, rfl⟩ | ⟨-, cps, -, rfl⟩ | ⟨-, -, m, -, rfl⟩ | ⟨-, -, -, c, m, -, -, rfl⟩ | ⟨-, -, rfl⟩
    exacts [errorStatus_ne_zero e.code, hs, hs, hs, okStatus_ne_zero (truncates s)]
  by_cases hdecode : s.cmd = 0x02
  · rw [engineTurn_decode hdecode] at h
    rcases decodeTurn_cases h with ⟨-, e, -, rfl⟩ | ⟨-, -, rfl⟩ | ⟨-, -, b, -, rfl⟩ | ⟨-, -, -, b, c, o, -, -, -, rfl⟩ | ⟨-, -, rfl⟩
    exacts [errorStatus_ne_zero e.code, hs, hs, hs, okStatus_ne_zero false]
  rw [engineTurn_short hencode hdecode] at h
  exact runCommand_status_ne_zero h

@[simp] theorem regWrite_status (s : State) (r : Nat) (v : Word) : (regWrite s r v).status = s.status := by
  rw [regWrite_frame]

@[simp] theorem pixWrite_status (a : Nat) (v : Byte) (s : State) : (pixWrite a v s).status = s.status := by
  unfold pixWrite
  split_ifs <;> rfl

/-- Of the events of an idle block, reset alone clears `STATUS`. -/
theorem hostEvent_status_ne_zero {s t : State} {e : HostEvent} (h : hostEvent e s = .next t) (hs : s.status ≠ 0x00)
    (he : e ≠ .reset) : t.status ≠ 0x00 := by
  rcases hostEvent_cases h with ⟨rfl, -⟩ | ⟨v, -, ⟨-, hrun⟩ | ⟨-, rfl⟩⟩ | ⟨r, v, -, -, rfl⟩ | ⟨a, v, -, rfl⟩ | ⟨a, v, -, -, rfl⟩ |
    ⟨r, rfl⟩
  · exact absurd rfl he
  · exact runCommand_status_ne_zero hrun
  · exact (by decide : busyStatus ≠ 0x00)
  · rwa [regWrite_status]
  · rwa [pixWrite_status]
  · split_ifs <;> exact hs
  · exact hs

/-- Settles O36: neither the engine nor another host event clears `STATUS`. -/
theorem onlyResetClearsStatus : Obligations.OnlyResetClearsStatus := by
  intro s t h hs ht
  rcases step_effect h with ⟨ts, -, hturn⟩ | ⟨hb, e, es, hi, hevent⟩ | ⟨htakes, -⟩ | ⟨ts, es, rs, rfl⟩
  · exact absurd ht (engineTurn_status_ne_zero hturn hs)
  · by_cases he : e = .reset
    · exact takes_of_idle hb (he ▸ hi)
    · exact absurd ht (hostEvent_status_ne_zero hevent hs he)
  · exact htakes
  · exact absurd ht hs

end Sys2Proof.Machine
end

section
/-! RDBIT and WRBIT of an element never written (R172; log 6). -/

namespace Sys2Proof.Machine

variable {s : State}

theorem exec_rdbit_of_unwritten (hfit : s.nlen.toNat ≤ s.params.pixCap) (hidx : s.bitidx.toNat < s.nlen.toNat)
    (hnone : Memory.read s.pix s.bitidx.toNat = none) : exec .rdbit s = .refused (.unwritten .pix s.bitidx.toNat) := by
  rw [exec, execRdbit, bitChecks_eq_ok.mpr ⟨hfit, hidx⟩, guarded_ok, lsbRead_of_none hnone, andThen_refused]

theorem exec_wrbit_of_unwritten (hfit : s.nlen.toNat ≤ s.params.pixCap) (hidx : s.bitidx.toNat < s.nlen.toNat)
    (hnone : Memory.read s.pix s.bitidx.toNat = none) : exec .wrbit s = .refused (.unwritten .pix s.bitidx.toNat) := by
  rw [exec, execWrbit, bitChecks_eq_ok.mpr ⟨hfit, hidx⟩, guarded_ok, lsbWrite_of_none hnone, andThen_refused]

/-- Settles O12: the checks pass, and the access to the element is refused. -/
theorem bitCommandsRefuseUnwritten : Obligations.BitCommandsRefuseUnwritten := by
  rintro s i (rfl | rfl) hfit hidx hnone
  · exact exec_rdbit_of_unwritten hfit hidx hnone
  · exact exec_wrbit_of_unwritten hfit hidx hnone

end Sys2Proof.Machine
end

section
/-! The host's turns of the busy window (R176, R178). -/

namespace Sys2Proof.Machine

/-- Settles O52: the event of a busy block is taken and does nothing. -/
theorem busyHostWritesAreIgnored : Obligations.BusyHostWritesAreIgnored := by
  intro s e es ts hb ht hi hwrite
  rw [step_busy_event hb ht hi]
  rcases hwrite with ⟨r, v, rfl⟩ | ⟨a, v, rfl⟩ | ⟨a, v, rfl⟩ <;> rfl

theorem eq_busyStatus_of_legal : ∀ st ∈ legalStatus, st.getLsbD 0 = true → st = busyStatus := by decide

/-- Of the legal values of `STATUS` (R15) one has `BUSY`. -/
theorem State.Inv.status_of_busy {s : State} (h : s.Inv) (hb : s.busy = true) : s.status = busyStatus :=
  eq_busyStatus_of_legal s.status h.status hb

theorem busyHostEvent_regRead_status (s : State) :
    busyHostEvent (.regRead 1) s = .next (reply (.reg 1 (s.status.setWidth 64)) s) := rfl

theorem busyHostEvent_regRead_of_ne (s : State) {r : Nat} (hr : r ≠ 1) : busyHostEvent (.regRead r) s = .refused .busyRead :=
  if_neg hr

/-- Settles O53: a read of `STATUS` is answered, and the invariant gives its value; all others are refused. -/
theorem busyHostReadsOnlyStatus : Obligations.BusyHostReadsOnlyStatus := by
  intro s e es ts hinv hb ht hi
  rw [step_busy_event hb ht hi]
  constructor
  · rintro rfl
    rw [busyHostEvent_regRead_status, hinv.status_of_busy hb]
    rfl
  · rintro (⟨r, hr, rfl⟩ | ⟨a, rfl⟩ | ⟨a, rfl⟩ | ⟨a, rfl⟩)
    · exact busyHostEvent_regRead_of_ne _ hr
    all_goals rfl

end Sys2Proof.Machine
end
